-- ==== Sys2Proof/Word.lean ====
section
/-! DEFINITION. The bit-vector widths of the block: words, bytes, shift amounts, request and response words. -/

namespace Sys2Proof

/-- A 32-bit unsigned word: accumulator, key, working key (00_scope.md R4 `WORD`, R6 `U32`). -/
abbrev Word := BitVec 32

/-- One byte of the buffer memory, 0 to 255 (00_scope.md R4 `BYTE`, R6 `U8`). -/
abbrev Byte := BitVec 8

/-- A shift amount 0 to 31, the width of the register `SHIFT` (10_state.md R15). -/
abbrev ShiftAmt := BitVec 5

/-- A request word, exactly 64 bits (30_encoding.md R60). -/
abbrev Request := BitVec 64

/-- A response word, exactly 36 bits (30_encoding.md R60). -/
abbrev ResponseWord := BitVec 36

end Sys2Proof
end

