-- ==== Sys2Proof/Syntax.lean ====
section
/-! DEFINITION. The six transactions (one constructor per row of spec/opcode_table.json), the names of operations and of
host-visible registers, and what the decoder can answer. -/

namespace Sys2Proof

/-- The transactions of 30_encoding.md R63. A register index and a memory address are plain numbers (30_encoding.md R65:
the address is compared "as a natural number, no truncation"); `Instr.WellFormed` bounds them by their fields. -/
inductive Instr where
  /-- `RD reg`: read one host-visible register (42_host_access.md R130). -/
  | rd (reg : Nat)
  /-- `WR reg, value`: write one host-writable register (42_host_access.md R131). -/
  | wr (reg : Nat) (value : Word)
  /-- `MRD addr`: read one byte of buffer memory (42_host_access.md R132). -/
  | mrd (addr : Nat)
  /-- `MWR addr, byte`: write one byte of buffer memory (42_host_access.md R133). -/
  | mwr (addr : Nat) (byte : Byte)
  /-- `HASH`: the seed hash of the buffer window into `ACC` (40_hash.md R85). -/
  | hash
  /-- `CRYPT`: transform the buffer window in place under `KEY` (41_crypt.md R111). -/
  | crypt
deriving DecidableEq, Repr

/-- The operations an `op` field can name (30_encoding.md R63). -/
inductive Op where
  | rd | wr | mrd | mwr | hash | crypt
deriving DecidableEq, Repr

/-- The host-visible registers (10_state.md R12). -/
inductive RegName where
  | base | len | key | acc | shift
deriving DecidableEq, Repr

/-- The two refusals the decoder makes (30_encoding.md R64). -/
inductive DecodeRefusal where
  /-- `E_OP`: a reserved operation code (60_exceptions.md R162). -/
  | eOp
  /-- `E_FIELD`: a field that must be zero is not (60_exceptions.md R163). -/
  | eField
deriving DecidableEq, Repr

/-- What the decoder answers: the transaction, or a refusal by name (30_encoding.md R64). -/
inductive Decoded where
  | instr (i : Instr)
  | refused (c : DecodeRefusal)
deriving DecidableEq, Repr

/-- One row of the match and mask table of 30_encoding.md R63. -/
structure OpcodeRow where
  op : Op
  pattern : Request
  mask : Request
deriving DecidableEq, Repr

end Sys2Proof
end

