-- ==== Sys2Proof/WellFormed.lean ====
section
/-! DEFINITION. Which terms of `Instr` a request word can spell: the bounds of the fields that carry numbers. -/

namespace Sys2Proof

/-- A register index fits the 4-bit `reg` field (30_encoding.md R61). Indices 5 to 15 are well-formed: they hold no register,
and the transaction that names one is refused when performed (10_state.md R19). -/
def regFits (reg : Nat) : Bool := decide (reg < 2 ^ 4)

/-- An address fits the 32-bit `data` field (30_encoding.md R61). Addresses beyond the memory are well-formed: the
transaction is refused when performed (60_exceptions.md R165). -/
def addrFits (addr : Nat) : Bool := decide (addr < 2 ^ 32)

/-- The check of every operand that is a number. -/
def Instr.wellFormed : Instr → Bool
  | .rd reg => regFits reg
  | .wr reg _ => regFits reg
  | .mrd addr => addrFits addr
  | .mwr addr _ => addrFits addr
  | .hash => true
  | .crypt => true

/-- The transaction is one a request word can spell. -/
abbrev Instr.WellFormed (i : Instr) : Prop := i.wellFormed = true

end Sys2Proof
end

