-- ==== Sys2Proof/Decode.lean ====
section
/-! DEFINITION. The request word of 30_encoding.md: its fields, the opcode map, the decoder (total, refusing by name), the
match and mask table, and the encoder. -/

namespace Sys2Proof

/-! ## Fields (30_encoding.md R61) -/

/-- `op`, bits 63:60. -/
def opField (q : Request) : BitVec 4 := q.extractLsb' 60 4

/-- `reg`, bits 59:56. -/
def regField (q : Request) : BitVec 4 := q.extractLsb' 56 4

/-- `rsv`, bits 55:40. -/
def rsvField (q : Request) : BitVec 16 := q.extractLsb' 40 16

/-- `byte`, bits 39:32. -/
def byteField (q : Request) : Byte := q.extractLsb' 32 8

/-- `data`, bits 31:0. -/
def dataField (q : Request) : Word := q.extractLsb' 0 32

/-- The request word with the given fields, `op` in the most significant position (30_encoding.md R61). -/
def requestWord (op reg : BitVec 4) (rsv : BitVec 16) (byte : Byte) (data : Word) : Request :=
  op ++ reg ++ rsv ++ byte ++ data

/-! ## The opcode map (30_encoding.md R63) -/

/-- The operation code of each operation. -/
def Op.code : Op → BitVec 4
  | .rd => 0x1
  | .wr => 0x2
  | .mrd => 0x3
  | .mwr => 0x4
  | .hash => 0x8
  | .crypt => 0x9

/-- The operation of a code; the ten reserved codes have none (30_encoding.md R66). -/
def Op.ofCode (c : BitVec 4) : Option Op :=
  if c = 0x1 then some .rd
  else if c = 0x2 then some .wr
  else if c = 0x3 then some .mrd
  else if c = 0x4 then some .mwr
  else if c = 0x8 then some .hash
  else if c = 0x9 then some .crypt
  else none

/-- The fields that 30_encoding.md R63 lists as must-be-zero for the operation hold zero in the request. -/
def reservedFieldsZero (op : Op) (q : Request) : Bool :=
  rsvField q == 0 &&
    match op with
    | .rd => byteField q == 0 && dataField q == 0
    | .wr => byteField q == 0
    | .mrd => regField q == 0 && byteField q == 0
    | .mwr => regField q == 0
    | .hash => regField q == 0 && byteField q == 0 && dataField q == 0
    | .crypt => regField q == 0 && byteField q == 0 && dataField q == 0

/-- The transaction of an operation, its operands taken from their fields whole (30_encoding.md R65). -/
def instrOf (op : Op) (q : Request) : Instr :=
  match op with
  | .rd => .rd (regField q).toNat
  | .wr => .wr (regField q).toNat (dataField q)
  | .mrd => .mrd (dataField q).toNat
  | .mwr => .mwr (dataField q).toNat (byteField q)
  | .hash => .hash
  | .crypt => .crypt

/-- The decoder of 30_encoding.md R64: first the operation code, then the must-be-zero fields. -/
def decode (q : Request) : Decoded :=
  match Op.ofCode (opField q) with
  | none => .refused .eOp
  | some op => if reservedFieldsZero op q then .instr (instrOf op q) else .refused .eField

/-- The match and mask table of 30_encoding.md R63 (spec/opcode_table.json). -/
def opcodeTable : List OpcodeRow :=
  [ ⟨.rd,    0x1000000000000000, 0xF0FFFFFFFFFFFFFF⟩,
    ⟨.wr,    0x2000000000000000, 0xF0FFFFFF00000000⟩,
    ⟨.mrd,   0x3000000000000000, 0xFFFFFFFF00000000⟩,
    ⟨.mwr,   0x4000000000000000, 0xFFFFFF0000000000⟩,
    ⟨.hash,  0x8000000000000000, 0xFFFFFFFFFFFFFFFF⟩,
    ⟨.crypt, 0x9000000000000000, 0xFFFFFFFFFFFFFFFF⟩ ]

/-- "a request `Q` selects a row when `(Q AND mask) = match`" (30_encoding.md R63). -/
def OpcodeRow.selects (r : OpcodeRow) (q : Request) : Bool := q &&& r.mask == r.pattern

/-- The instruction the decoder reads from a table word: the one word of a request, its bits above `nbits` zero. -/
def decodeTableWord (nbits w : Nat) : Option Instr :=
  match decode (BitVec.ofNat 64 (w % 2 ^ nbits)) with
  | .instr i => some i
  | .refused _ => none

/-! ## The encoder (30_encoding.md R63, R70) -/

/-- The request word of a transaction (30_encoding.md R70). -/
def encode : Instr → Request
  | .rd reg => requestWord 0x1 (BitVec.ofNat 4 reg) 0 0 0
  | .wr reg value => requestWord 0x2 (BitVec.ofNat 4 reg) 0 0 value
  | .mrd addr => requestWord 0x3 0 0 0 (BitVec.ofNat 32 addr)
  | .mwr addr byte => requestWord 0x4 0 0 byte (BitVec.ofNat 32 addr)
  | .hash => requestWord 0x8 0 0 0 0
  | .crypt => requestWord 0x9 0 0 0 0

end Sys2Proof
end

