-- ==== Sys2Proof/Config.lean ====
section
/-! DEFINITION. The parameters of 00_scope.md R4 and the free values the spec leaves open (no body: nothing can be proved of their values). -/

namespace Sys2Proof.Config

/-- `BUF_BYTES`, the number of bytes of the buffer memory: the instance value of 00_scope.md R4 (90_conflicts.md C3). -/
def bufBytes : Nat := 80

/-- `REG_W`, the width in bits of the registers `BASE` and `LEN`: the instance value of 00_scope.md R4. It is reducible, so
that a register value is a request's 32-bit `data` and a response's 32-bit `rdata` (assumption log 5). -/
abbrev regW : Nat := 32

/-- `HASH_INIT`, the initial accumulator (00_scope.md R4). -/
def hashInit : Word := 5381

/-- `HASH_MUL`, the accumulator multiplier (00_scope.md R4). -/
def hashMul : Word := 33

/-- `CHUNK`, the largest chunk length in bytes (00_scope.md R4). -/
def chunkBytes : Nat := 4

/-- `SHIFT_STEP`, added to the shift once per chunk (00_scope.md R4). -/
def shiftStep : Nat := 5

/-- `SHIFT_MOD`, the modulus of the shift (00_scope.md R4). -/
def shiftMod : Nat := 32

/-- FREE VALUE (assumption log 2): what a byte of `MEM` that no transaction has written since reset reads as. 10_state.md
R29 and 93_implementation_defined.md U6: an arbitrary byte, the same at every read until the byte is written. -/
opaque memAtReset : Nat → Byte

/-- `REF_LEN`, the length the driver requires (00_scope.md R4, driver only). -/
def refLen : Nat := 63

/-- `LINE_CAP`, the bytes of the driver's line buffer, terminator included (00_scope.md R4, driver only). -/
def lineCap : Nat := 80

/-- FREE VALUE (assumption log 10): `REF`, the reference buffer of the driver, whose bytes are in no source (00_scope.md R4,
42_host_access.md R149). -/
opaque ref : Vector Byte refLen

/-- FREE VALUE (assumption log 10): which characters the driver strips as newline characters (42_host_access.md R146;
91_not_in_source.md N16). -/
opaque isNewline : Byte → Bool

/-- FREE VALUE (assumption log 13): the byte that stands for a character outside 7-bit ASCII in a text of a host program
(30_encoding.md R71 names no character set). -/
opaque byteOfChar : Char → Byte

end Sys2Proof.Config
end

