-- ==== Sys2Proof/Machine/Arith.lean ====
section
/-! DEFINITION. The word primitives of 00_scope.md R7 that the two algorithms use. All are total and unsigned. -/

namespace Sys2Proof.Machine

/-- `add32(a, b) = (a + b) mod 2^32` (00_scope.md R7). -/
def add32 (a b : Word) : Word := a + b

/-- `mul32(a, b) = (a * b) mod 2^32` (00_scope.md R7). -/
def mul32 (a b : Word) : Word := a * b

/-- `xor32(a, b)` (00_scope.md R7). -/
def xor32 (a b : Word) : Word := a ^^^ b

/-- `or32(a, b)` (00_scope.md R7). -/
def or32 (a b : Word) : Word := a ||| b

/-- `shl32(a, s)`: bits shifted out at the top are lost (00_scope.md R7). -/
def shl32 (a : Word) (s : Nat) : Word := a <<< s

/-- `shr32(a, s)`: logical, zeros enter at the top (00_scope.md R7). -/
def shr32 (a : Word) (s : Nat) : Word := a >>> s

/-- `rotl32(a, s)`, with `s = 0` a case of its own, so that no word is ever shifted by 32 (00_scope.md R7, 41_crypt.md
R103, 93_implementation_defined.md U1). -/
def rotl32 (a : Word) (s : ShiftAmt) : Word :=
  if s = 0 then a else or32 (shl32 a s.toNat) (shr32 a (32 - s.toNat))

/-- `bit32(s) = 2^s`, the word with only bit `s` set (00_scope.md R7). -/
def bit32 (s : ShiftAmt) : Word := shl32 1 s.toNat

/-- `zext_32` of a byte (00_scope.md R7). -/
def zextByte (b : Byte) : Word := b.setWidth 32

/-- `zext_32` of a shift amount (00_scope.md R7, 10_state.md R15). -/
def zextShift (s : ShiftAmt) : Word := s.setWidth 32

/-- Bits 7:0 of a word (00_scope.md R6). -/
def lowByte (a : Word) : Byte := a.setWidth 8

end Sys2Proof.Machine
end

