-- ==== Sys2Proof/Machine/State.lean ====
section
/-! DEFINITION. The state as plain data: the block's own state (10_state.md R10), the host port's two queues, the reasons a
step can stop, and the state after reset (10_state.md R29). -/

namespace Sys2Proof.Machine

/-- `PHASE` of the sequencer (10_state.md R21); `idle` means that no command is in progress. -/
inductive Phase where
  | idle | hRun | cChunk | cByte | cUpd
deriving DecidableEq, Repr

/-- `MEM` as the list of the bytes that have been written, addresses strictly rising (`Memory.wf`); an address that is not
listed holds no written byte (20_memory.md R40, assumption log 2). -/
abbrev Memory := List Host.Cell

/-- The status of a response (60_exceptions.md R161); codes 6 to 15 are never produced. -/
inductive Status where
  | ok | eOp | eField | eReg | eAddr | eRange
deriving DecidableEq, Repr

/-- A response: `status` and `rdata` (30_encoding.md R62). Its 36-bit word is `Response.word`. -/
structure Response where
  status : Status
  rdata : Word
deriving DecidableEq, Repr

/-- The complete state of the block (10_state.md R10). -/
structure Block where
  /-- `ACC`, the accumulator (10_state.md R13). -/
  acc : Word
  /-- `KEY`, the evolving key (10_state.md R14). -/
  key : Word
  /-- `SHIFT`, 5 bits (10_state.md R15). -/
  shift : ShiftAmt
  /-- `CKEY`, the working key, not visible to the host (10_state.md R16). -/
  ckey : Word
  /-- `BASE`, the address of the buffer window, `REG_W` bits (10_state.md R17). -/
  base : BitVec Config.regW
  /-- `LEN`, the length of the buffer window, `REG_W` bits (10_state.md R18). -/
  len : BitVec Config.regW
  /-- `PHASE` (10_state.md R21). -/
  phase : Phase
  /-- `PTR`, 0 to `BUF_BYTES` (10_state.md R21). -/
  ptr : Nat
  /-- `REM`, 0 to `BUF_BYTES` (10_state.md R21). -/
  rem : Nat
  /-- `CLEN`, 0 to 4 (10_state.md R21). -/
  clen : Nat
  /-- `IDX`, 0 to 4 (10_state.md R21). -/
  idx : Nat
  /-- `MEM`, the buffer memory (10_state.md R26). -/
  mem : Memory
deriving DecidableEq, Repr

/-- The state of the whole system of 00_scope.md R8: the block, and the host port's traffic. The two queues are the MODEL's
own fields (assumption log 1): the spec keeps the host's request list outside the block (10_state.md R20, R27). -/
structure State where
  /-- The block. -/
  block : Block
  /-- The request words the host has presented and the block has not taken yet, the next one first. -/
  requests : List Request
  /-- The responses the block has delivered, oldest first. -/
  responses : List Response
deriving DecidableEq, Repr

/-- Why a step of the MODEL could stop with a fault. The hardware has no fatal state (70_reset_and_hazards.md R199). -/
inductive Fault where
  /-- `MemRead` or `MemWrite` at an address that names no byte (20_memory.md R40, R41). Raised by `memRead` and `memWrite`
  only, after every range check; safe: the model stops where the spec defines nothing. -/
  | noSuchByte (addr : Nat)
deriving DecidableEq, Repr

/-- Why the MODEL could refuse an instruction. The hardware's own refusals are responses (60_exceptions.md R160), hence
next states. -/
inductive Refusal where
  /-- The instruction has no meaning in the model yet. Raised by an arm of `exec` only, and by none at present; safe. -/
  | notModelled (mnemonic : String)
deriving DecidableEq, Repr

/-- The block after reset (10_state.md R29). `CKEY`, `PTR`, `REM`, `CLEN`, `IDX` are unspecified there: their zeros are a
DESIGN CHOICE (assumption log 3), and nothing is listed in `MEM` (assumption log 2). -/
def Block.reset : Block where
  acc := 0
  key := 0
  shift := 0
  ckey := 0
  base := 0
  len := 0
  phase := .idle
  ptr := 0
  rem := 0
  clen := 0
  idx := 0
  mem := []

/-- The machine right after reset: the block of 10_state.md R29, no request presented, no response delivered. -/
def State.reset : State where
  block := Block.reset
  requests := []
  responses := []

end Sys2Proof.Machine
end

