-- ==== Sys2Proof/Machine/Ops.lean ====
section
/-! DEFINITION. The shared operations: the buffer memory, the host port (taking a request, delivering a response), a refusal
(the block's only exception), and reset as an event. -/

namespace Sys2Proof.Machine

/-! ## The buffer memory (20_memory.md R40, R41) -/

/-- What the list says of an address it does not hold: no written byte. The ONE definition of an unlisted address. -/
def Memory.unlisted : Option Byte := none

/-- The byte written at an address, if one was. -/
def Memory.lookup : Memory → Nat → Option Byte
  | [], _ => Memory.unlisted
  | (b, v) :: m, a => if a = b then some v else Memory.lookup m a

/-- `MEM[a]`: the written byte, or the free value of a byte not written since reset (10_state.md R29, assumption log 2). -/
def Memory.get (m : Memory) (a : Nat) : Byte := (m.lookup a).getD (Config.memAtReset a)

/-- `MEM[a] <- v`, no other byte changed, the addresses kept strictly rising. -/
def Memory.set : Memory → Nat → Byte → Memory
  | [], a, v => [(a, v)]
  | (b, w) :: m, a, v =>
    if a < b then (a, v) :: (b, w) :: m
    else if a = b then (a, v) :: m
    else (b, w) :: Memory.set m a v

/-- The canonical form: addresses strictly rising, each naming a byte of the memory. -/
abbrev Memory.wf (m : Memory) : Prop :=
  m.Pairwise (fun c d => c.1 < d.1) ∧ ∀ c ∈ m, c.1 < Config.bufBytes

/-- An address names a byte: there is no wrap-around at the top (20_memory.md R40). -/
def addrInMemory (a : Nat) : Bool := decide (a < Config.bufBytes)

/-- `MemRead(a, 1)`, defined only below `BUF_BYTES` (20_memory.md R41). -/
def memRead (b : Block) (a : Nat) : Except Fault Byte :=
  if addrInMemory a then .ok (b.mem.get a) else .error (.noSuchByte a)

/-- `MemWrite(a, 1, v)`, defined only below `BUF_BYTES` (20_memory.md R41). -/
def memWrite (b : Block) (a : Nat) (v : Byte) : Except Fault Block :=
  if addrInMemory a then .ok { b with mem := b.mem.set a v } else .error (.noSuchByte a)

/-! ## The host port (00_scope.md R8, 30_encoding.md R60) -/

/-- The next request word and the state in which the block has taken it; none while the host presents none. -/
def takeRequest (s : State) : Option (Request × State) :=
  match s.requests with
  | [] => none
  | q :: qs => some (q, { s with requests := qs })

/-- Deliver one response (30_encoding.md R60, R62). -/
def State.respond (s : State) (status : Status) (rdata : Word) : State :=
  { s with responses := s.responses ++ [⟨status, rdata⟩] }

/-- Present one request word, before any that already waits. -/
def State.present (s : State) (q : Request) : State := { s with requests := q :: s.requests }

/-! ## A refusal, the block's only exception (60_exceptions.md R160)

Nothing is saved, no mode changes, control goes nowhere: the response carries the code and a zero, and the block's state is
what it was. There is no return from it (60_exceptions.md R171). -/

/-- `raise Refuse(code)` (00_scope.md R7, 60_exceptions.md R160). -/
def State.refuse (s : State) (code : Status) : State := s.respond code 0

/-- End an accepted transaction: the new block state and the response `OK` with the value read (60_exceptions.md R168). -/
def State.complete (s : State) (r : Except Fault (Block × Word)) : Host.Outcome State Fault Refusal :=
  match r with
  | .ok (b, rdata) => .next ({ s with block := b }.respond .ok rdata)
  | .error f => .fault f

/-! ## Reset as an event (70_reset_and_hazards.md R190, R191) -/

/-- Reset delivered from outside the host port, between two transactions: every register as 10_state.md R29 says, the memory
not changed, no transaction performed, none of the host's requests taken. No transaction calls it (assumption log 9). -/
def State.resetEvent (s : State) : State :=
  { s with block := { Block.reset with mem := s.block.mem } }

end Sys2Proof.Machine
end

