-- ==== Sys2Proof/Machine/Operands.lean ====
section
/-! DEFINITION. The operand forms: a register index, a memory address, and the buffer window of a command. -/

namespace Sys2Proof.Machine

/-- The register of an index; indices 5 to 15 hold none (10_state.md R12, R19). -/
def regOfIndex : Nat → Option RegName
  | 0 => some .base
  | 1 => some .len
  | 2 => some .key
  | 3 => some .acc
  | 4 => some .shift
  | _ => none

/-- The index of a register (10_state.md R12). -/
def indexOfReg : RegName → Nat
  | .base => 0
  | .len => 1
  | .key => 2
  | .acc => 3
  | .shift => 4

/-- The value a host read returns; `SHIFT` is zero-extended (10_state.md R12, R15). -/
def readReg (b : Block) : RegName → Word
  | .base => b.base
  | .len => b.len
  | .key => b.key
  | .acc => b.acc
  | .shift => zextShift b.shift

/-- A host write of a register; `ACC` and `SHIFT` are read-only to the host (10_state.md R12). -/
def writeReg (b : Block) (r : RegName) (v : Word) : Option Block :=
  match r with
  | .base => some { b with base := v }
  | .len => some { b with len := v }
  | .key => some { b with key := v }
  | .acc => none
  | .shift => none

/-- The value of the register operand of `RD`, where the index holds a register (42_host_access.md R130). -/
def readOperand (b : Block) (reg : Nat) : Option Word := (regOfIndex reg).map (readReg b)

/-- The block after a write through the register operand of `WR`, where the index holds a writable register
(42_host_access.md R131). -/
def writeOperand (b : Block) (reg : Nat) (v : Word) : Option Block :=
  match regOfIndex reg with
  | some r => writeReg b r v
  | none => none

/-- The range check of the commands, the sum taken over the naturals (60_exceptions.md R164). -/
def windowFits (b : Block) : Bool := decide (b.base.toNat + b.len.toNat ≤ Config.bufBytes)

/-- The buffer window `MEM[BASE .. BASE + LEN)`, offset 0 first (10_state.md R26). -/
def window (b : Block) : List Byte :=
  (List.range b.len.toNat).map fun j => b.mem.get (b.base.toNat + j)

end Sys2Proof.Machine
end

