-- ==== Sys2Proof/Machine/Access.lean ====
section
/-! DEFINITION. The four access transactions: `RD`, `WR`, `MRD`, `MWR` (42_host_access.md sections 1 and 2). -/

namespace Sys2Proof.Machine

/-- `RD reg` (42_host_access.md R130): the register's value, or `E_REG` for an index that holds none. -/
def execRd (reg : Nat) (s : State) : Host.Outcome State Fault Refusal :=
  match readOperand s.block reg with
  | some v => s.complete (.ok (s.block, v))
  | none => .next (s.refuse .eReg)

/-- `WR reg, value` (42_host_access.md R131): exactly the one register named is written, or `E_REG` for an index that
holds no register the host may write. -/
def execWr (reg : Nat) (value : Word) (s : State) : Host.Outcome State Fault Refusal :=
  match writeOperand s.block reg value with
  | some b => s.complete (.ok (b, 0))
  | none => .next (s.refuse .eReg)

/-- `MRD addr` (42_host_access.md R132): the byte, zero-extended, or `E_ADDR` beyond the memory. -/
def execMrd (addr : Nat) (s : State) : Host.Outcome State Fault Refusal :=
  if addrInMemory addr then s.complete ((memRead s.block addr).map fun v => (s.block, zextByte v))
  else .next (s.refuse .eAddr)

/-- `MWR addr, byte` (42_host_access.md R133): exactly `MEM[addr]` is written, or `E_ADDR` beyond the memory. -/
def execMwr (addr : Nat) (byte : Byte) (s : State) : Host.Outcome State Fault Refusal :=
  if addrInMemory addr then s.complete ((memWrite s.block addr byte).map fun b => (b, 0))
  else .next (s.refuse .eAddr)

end Sys2Proof.Machine
end

