-- ==== Sys2Proof/Machine/Cipher.lean ====
section
/-! DEFINITION. The key schedule and the keyed stream transform as functions (41_crypt.md sections 2 and 3) and the sequencer
steps of `CRYPT` (41_crypt.md section 5). -/

namespace Sys2Proof.Machine

/-! ## The key schedule -/

/-- `next_shift(s) = (s + 5) mod 32` (41_crypt.md R101). -/
def nextShift (s : ShiftAmt) : ShiftAmt := BitVec.ofNat 5 ((s.toNat + Config.shiftStep) % Config.shiftMod)

/-- `next_key(k, s) = xor32(k, or32(rotl32(k, s), bit32(s)))` (41_crypt.md R102). -/
def nextKey (k : Word) (s : ShiftAmt) : Word := xor32 k (or32 (rotl32 k s) (bit32 s))

/-- `s_n`: the shift of the n-th key update, `s_0 = 0` (41_crypt.md R101, R104). -/
def scheduleShift : Nat → ShiftAmt
  | 0 => 0
  | n + 1 => nextShift (scheduleShift n)

/-- `K_n`: the key after the n-th update, each made with the NEW shift (41_crypt.md R103, R104). -/
def scheduleKey (k : Word) : Nat → Word
  | 0 => k
  | n + 1 => nextKey (scheduleKey k n) (scheduleShift (n + 1))

/-! ## The function -/

/-- The key byte that meets byte `i` of a chunk: `shr32(k, 8 * i)[7:0]` (41_crypt.md R105; 20_memory.md R43: the least
significant byte of the key goes to the lowest address). -/
def keyByte (k : Word) (i : Nat) : Byte := lowByte (shr32 k (8 * i))

/-- `xchunk(C, k)`: one chunk under one key (41_crypt.md R105). -/
def xchunk (chunk : List Byte) (k : Word) : List Byte := chunk.mapIdx fun i c => c ^^^ keyByte k i

/-- The chunk loop of `crypt`, `fuel` bounding the number of chunks (41_crypt.md R106). -/
def cloopFuel : Nat → List Byte → Word → ShiftAmt → List Byte × Word × ShiftAmt
  | 0, bytes, k, s => (bytes, k, s)
  | _ + 1, [], k, s => ([], k, s)
  | n + 1, b :: bs, k, s =>
    let c := min (b :: bs).length Config.chunkBytes
    let s' := nextShift s
    let k' := nextKey k s'
    let r := cloopFuel n ((b :: bs).drop c) k' s'
    (xchunk ((b :: bs).take c) k ++ r.1, r.2)

/-- `cloop` (41_crypt.md R106); a buffer never has more chunks than bytes. -/
def cloop (bytes : List Byte) (k : Word) (s : ShiftAmt) : List Byte × Word × ShiftAmt :=
  cloopFuel bytes.length bytes k s

/-- `crypt(B, K)`: the transformed buffer, the final key and the final shift (41_crypt.md R106). -/
def crypt (bytes : List Byte) (k : Word) : List Byte × Word × ShiftAmt := cloop bytes k 0

/-- `N = ceil(L / 4)`, the number of chunks (41_crypt.md R107). -/
def chunkCount (len : Nat) : Nat := (len + (Config.chunkBytes - 1)) / Config.chunkBytes

/-! ## The sequencer steps -/

/-- The start of an accepted `CRYPT`; `KEY` is left as the host wrote it (41_crypt.md R112). -/
def cryptStart (b : Block) : Block :=
  { b with shift := 0, ptr := b.base.toNat, rem := b.len.toNat, phase := .cChunk }

/-- The `C_CHUNK` step: the loop test, steps a and b (41_crypt.md R113). -/
def cChunkStep (b : Block) : Block :=
  if b.rem = 0 then { b with phase := .idle }
  else { b with clen := min b.rem Config.chunkBytes, ckey := b.key, idx := 0, phase := .cByte }

/-- The `C_BYTE` step: step c for one byte, read then write (41_crypt.md R114). -/
def cByteStep (b : Block) : Except Fault Block :=
  if b.idx < b.clen then
    (memRead b (b.ptr + b.idx)).bind fun t =>
      (memWrite b (b.ptr + b.idx) (t ^^^ lowByte b.ckey)).map fun b' =>
        { b' with ckey := shr32 b.ckey 8, idx := b.idx + 1 }
  else .ok { b with phase := .cUpd }

/-- The `C_UPD` step: steps d, e, f, the key updated with the new shift (41_crypt.md R103, R115). -/
def cUpdStep (b : Block) : Block :=
  { b with
    ptr := b.ptr + b.clen
    rem := b.rem - b.clen
    shift := nextShift b.shift
    key := nextKey b.key (nextShift b.shift)
    phase := .cChunk }

/-- The sequencer steps of a `CRYPT` of `len` bytes (41_crypt.md R116). -/
def cryptSteps (len : Nat) : Nat := len + 3 * chunkCount len + 1

end Sys2Proof.Machine
end

