-- ==== Sys2Proof/Machine/SeedHash.lean ====
section
/-! DEFINITION. The seed hash as a function (40_hash.md section 1) and the sequencer steps of `HASH` (40_hash.md section 3). -/

namespace Sys2Proof.Machine

/-- `hstep(a, b) = add32(mul32(a, 33), zext_32(b))` (40_hash.md R80, R82). -/
def hstep (a : Word) (b : Byte) : Word := add32 (mul32 a Config.hashMul) (zextByte b)

/-- `hfold`, the bytes taken from offset 0 upward (40_hash.md R80). -/
def hfold : Word → List Byte → Word
  | a, [] => a
  | a, b :: t => hfold (hstep a b) t

/-- `seed_hash(B) = hfold(5381, B)` (40_hash.md R80). -/
def seedHash (bytes : List Byte) : Word := hfold Config.hashInit bytes

/-- The start of an accepted `HASH` (40_hash.md R86). -/
def hashStart (b : Block) : Block :=
  { b with acc := Config.hashInit, ptr := b.base.toNat, rem := b.len.toNat, phase := .hRun }

/-- The `H_RUN` step: the loop test, then one byte (40_hash.md R87). -/
def hRunStep (b : Block) : Except Fault Block :=
  if b.rem = 0 then .ok { b with phase := .idle }
  else (memRead b b.ptr).map fun v => { b with acc := hstep b.acc v, ptr := b.ptr + 1, rem := b.rem - 1 }

/-- The sequencer steps of a `HASH` of `len` bytes, the closing one included (40_hash.md R88). -/
def hashSteps (len : Nat) : Nat := len + 1

end Sys2Proof.Machine
end

