-- ==== Sys2Proof/Machine/Sequencer.lean ====
section
/-! DEFINITION. The hidden sequencer (10_state.md R21): one step, and a run of steps. -/

namespace Sys2Proof.Machine

/-- One sequencer step, by `PHASE` (10_state.md R21); in `IDLE` nothing happens. -/
def seqStep (b : Block) : Except Fault Block :=
  match b.phase with
  | .idle => .ok b
  | .hRun => hRunStep b
  | .cChunk => .ok (cChunkStep b)
  | .cByte => cByteStep b
  | .cUpd => .ok (cUpdStep b)

/-- `n` sequencer steps, the host barred from stepping in between (70_reset_and_hazards.md R198). -/
def runSeq : Nat → Block → Except Fault Block
  | 0, b => .ok b
  | n + 1, b => (seqStep b).bind (runSeq n)

end Sys2Proof.Machine
end

