-- ==== Sys2Proof/Machine/Commands.lean ====
section
/-! DEFINITION. The two commands: `HASH` (40_hash.md R85) and `CRYPT` (41_crypt.md R111), each the run of its sequencer steps
to completion as one transaction (70_reset_and_hazards.md R198). -/

namespace Sys2Proof.Machine

/-- A command over the buffer window: refused whole with `E_RANGE` before its first state change if the window does not fit
(60_exceptions.md R164), else run from its start state for its number of sequencer steps. -/
def State.runCommand (s : State) (start : Block) (steps : Nat) : Host.Outcome State Fault Refusal :=
  if windowFits s.block then s.complete ((runSeq steps start).map fun b => (b, 0))
  else .next (s.refuse .eRange)

/-- `HASH` (40_hash.md R85 to R88). -/
def execHash (s : State) : Host.Outcome State Fault Refusal :=
  s.runCommand (hashStart s.block) (hashSteps s.block.len.toNat)

/-- `CRYPT` (41_crypt.md R111 to R116). -/
def execCrypt (s : State) : Host.Outcome State Fault Refusal :=
  s.runCommand (cryptStart s.block) (cryptSteps s.block.len.toNat)

end Sys2Proof.Machine
end

