-- ==== Sys2Proof/Machine/Dispatch.lean ====
section
/-! DEFINITION. One arm per transaction of 30_encoding.md R63. -/

namespace Sys2Proof.Machine

/-- Perform one transaction that the decoder has accepted (30_encoding.md R64: "otherwise: perform the transaction by its
rule"). -/
def exec (i : Instr) (s : State) : Host.Outcome State Fault Refusal :=
  match i with
  | .rd reg => Sys2Proof.Machine.execRd reg s
  | .wr reg value => Sys2Proof.Machine.execWr reg value s
  | .mrd addr => Sys2Proof.Machine.execMrd addr s
  | .mwr addr byte => Sys2Proof.Machine.execMwr addr byte s
  | .hash => Sys2Proof.Machine.execHash s
  | .crypt => Sys2Proof.Machine.execCrypt s

end Sys2Proof.Machine
end

