-- ==== Sys2Proof/Machine/Flags.lean ====
section
/-! DEFINITION. The block has no flags and no status register (10_state.md R23): the only condition it reports is the status
of a response. This file gives the 36 bits of a response. -/

namespace Sys2Proof.Machine

/-- The status codes of 60_exceptions.md R161. -/
def Status.code : Status → BitVec 4
  | .ok => 0
  | .eOp => 1
  | .eField => 2
  | .eReg => 3
  | .eAddr => 4
  | .eRange => 5

/-- The status of each of the decoder's two refusals (60_exceptions.md R162, R163). -/
def statusOfDecode : DecodeRefusal → Status
  | .eOp => .eOp
  | .eField => .eField

/-- The response word, `status` in bits 35:32 and `rdata` in bits 31:0 (30_encoding.md R62). -/
def Response.word (r : Response) : ResponseWord := r.status.code ++ r.rdata

end Sys2Proof.Machine
end

