-- ==== Sys2Proof/Machine/Step.lean ====
section
/-! DEFINITION. One step of the system: one whole transaction (00_scope.md R8, 70_reset_and_hazards.md R198). -/

namespace Sys2Proof.Machine

/-- Take the next request word, decode it, and perform it or refuse it (30_encoding.md R64, 60_exceptions.md R167). While the
host presents no request nothing happens (10_state.md R20; assumption log 4). -/
def step (s : State) : Host.Outcome State Fault Refusal :=
  match takeRequest s with
  | none => .next s
  | some (q, t) =>
    match decode q with
    | .instr i => exec i t
    | .refused c => .next (t.refuse (statusOfDecode c))

/-- The state with the request word `w` (its bits above `nbits` zero) presented as the host's next request, the ones that
already wait behind it (assumption log 1). -/
def State.withFetchWord (s : State) (nbits w : Nat) : State :=
  s.present (BitVec.ofNat 64 (w % 2 ^ nbits))

end Sys2Proof.Machine
end

