-- ==== Sys2Proof/Machine/History.lean ====
section
/-! DEFINITION. The history of memory accesses: which byte reads and writes a transaction makes, in which order (20_memory.md
R42, R56). The host cannot observe it (20_memory.md R47); `State` does not hold it. -/

namespace Sys2Proof.Machine

/-- One access to one byte (20_memory.md R46). -/
inductive MemEvent where
  | read (addr : Nat)
  | write (addr : Nat) (value : Byte)
deriving DecidableEq, Repr

/-- The accesses of one sequencer step: the `MemRead` of R87, the `MemRead` and then the `MemWrite` of R114. -/
def seqEvents (b : Block) : List MemEvent :=
  match b.phase with
  | .idle => []
  | .hRun => if b.rem = 0 then [] else [.read b.ptr]
  | .cChunk => []
  | .cByte =>
    if b.idx < b.clen then
      [.read (b.ptr + b.idx), .write (b.ptr + b.idx) (b.mem.get (b.ptr + b.idx) ^^^ lowByte b.ckey)]
    else []
  | .cUpd => []

/-- The accesses of `n` sequencer steps, in order. -/
def runEvents : Nat → Block → List MemEvent
  | 0, _ => []
  | n + 1, b =>
    match seqStep b with
    | .ok b' => seqEvents b ++ runEvents n b'
    | .error _ => []

/-- The accesses of a transaction; a refused one makes none (60_exceptions.md R160). -/
def execEvents (i : Instr) (b : Block) : List MemEvent :=
  match i with
  | .rd _ => []
  | .wr _ _ => []
  | .mrd addr => if addrInMemory addr then [.read addr] else []
  | .mwr addr byte => if addrInMemory addr then [.write addr byte] else []
  | .hash => if windowFits b then runEvents (hashSteps b.len.toNat) (hashStart b) else []
  | .crypt => if windowFits b then runEvents (cryptSteps b.len.toNat) (cryptStart b) else []

end Sys2Proof.Machine
end

