-- ==== Sys2Proof/Machine/HostProgram.lean ====
section
/-! DEFINITION. The host's side of the port: programs one transaction per line with host variables (30_encoding.md R70), the
pseudo-instructions (30_encoding.md R71), and the verification pipeline (42_host_access.md R134, R135). None of this is the
block's behaviour (10_state.md R27): it issues request words to `step`. -/

namespace Sys2Proof.Machine

/-- An operand of a line: a number, or a host variable `$name` (30_encoding.md R70; the model numbers the names). -/
inductive Arg where
  | lit (v : Nat)
  | var (name : Nat)
deriving DecidableEq, Repr

/-- One line of a host program; `into` is the variable of `-> name` (30_encoding.md R70). -/
inductive Line where
  | rd (reg : Nat) (into : Option Nat)
  | wr (reg : Nat) (value : Arg)
  | mrd (addr : Arg) (into : Option Nat)
  | mwr (addr : Arg) (byte : Arg)
  | hash
  | crypt
deriving DecidableEq, Repr

/-- The host with its variables (10_state.md R27), and the system it drives. -/
structure HostState where
  vars : List (Nat × Word)
  system : State
deriving DecidableEq, Repr

/-- The number an operand stands for; none for a variable no line has set. -/
def argValue (vars : List (Nat × Word)) : Arg → Option Nat
  | .lit v => some v
  | .var name => ((vars.find? fun p => p.1 == name).map fun p => p.2.toNat)

/-- A number as the value of a field of `w` bits; none where it does not fit. -/
def fieldValue (w v : Nat) : Option (BitVec w) := if v < 2 ^ w then some (BitVec.ofNat w v) else none

/-- The transaction of a line (30_encoding.md R70); none for a line that spells no request word. -/
def lineInstr (vars : List (Nat × Word)) (l : Line) : Option Instr :=
  let spelled : Option Instr :=
    match l with
    | .rd reg _ => some (.rd reg)
    | .wr reg value => ((argValue vars value).bind (fieldValue 32)).map fun v => .wr reg v
    | .mrd addr _ => (argValue vars addr).map fun a => .mrd a
    | .mwr addr byte =>
      (argValue vars addr).bind fun a => ((argValue vars byte).bind (fieldValue 8)).map fun v => .mwr a v
    | .hash => some .hash
    | .crypt => some .crypt
  spelled.filter Instr.wellFormed

/-- The host variable a line sets. -/
def Line.into : Line → Option Nat
  | .rd _ x => x
  | .mrd _ x => x
  | .wr _ _ => none
  | .mwr _ _ => none
  | .hash => none
  | .crypt => none

/-- Issue one line: present its request word, let the system make its one step, keep the response's `rdata` if asked to. -/
def runLine (l : Line) (h : HostState) : Option HostState :=
  match lineInstr h.vars l with
  | none => none
  | some i =>
    match step (h.system.present (encode i)) with
    | .next t =>
      match l.into, t.responses.getLast? with
      | some x, some r => some ⟨(x, r.rdata) :: h.vars, t⟩
      | _, _ => some ⟨h.vars, t⟩
    | .fault _ => none
    | .refused _ => none

/-- Issue the lines of a program in order; a refusal by the block stops nothing (30_encoding.md R71). -/
def runProgram : List Line → HostState → Option HostState
  | [], h => some h
  | l :: ls, h => (runLine l h).bind (runProgram ls)

/-! ## Pseudo-instructions (30_encoding.md R71) -/

/-- `fill addr, b0, b1, ...`. -/
def fill (addr : Nat) (bytes : List Byte) : List Line :=
  bytes.mapIdx fun j b => .mwr (.lit (addr + j)) (.lit b.toNat)

/-- The byte of a character of a text. The model's choice (assumption log 13), as 30_encoding.md R71 names no character set:
DEDUCED for 7-bit ASCII from the texts of 95_test_vectors.md VH13 and VH14, a free value for every other character. -/
def charByte (c : Char) : Byte := if c.toNat < 128 then BitVec.ofNat 8 c.toNat else Config.byteOfChar c

/-- The bytes of a text, one per character, no terminator added (30_encoding.md R71). -/
def textBytes (text : String) : List Byte := text.toList.map charByte

/-- `dump addr, n`; what the host collects is `collected n`. -/
def dump (addr n : Nat) : List Line := (List.range n).map fun j => .mrd (.lit (addr + j)) none

/-- The bytes `rdata[7:0]` of the last `n` responses, in order: the byte sequence of a `dump` (30_encoding.md R71). -/
def collected (n : Nat) (s : State) : List Byte :=
  (s.responses.drop (s.responses.length - n)).map fun r => lowByte r.rdata

/-- `window base, len`. -/
def windowLines (base len : Nat) : List Line := [.wr 0 (.lit base), .wr 1 (.lit len)]

/-- `seedkey`, its host variable `t` numbered 0. -/
def seedkey : List Line := [.rd 3 (some 0), .wr 2 (.var 0)]

/-- `pipeline`. -/
def pipelineLines : List Line := [.hash] ++ seedkey ++ [.crypt]

/-! ## The verification pipeline -/

/-- The host program of 42_host_access.md R134 for a candidate placed at `addr`. -/
def pipelineProgram (addr : Nat) (candidate : List Byte) : List Line :=
  fill addr candidate ++ windowLines addr candidate.length ++ pipelineLines ++ dump addr candidate.length

/-- `pipeline(B) = first(crypt(B, seed_hash(B)))` (42_host_access.md R135). -/
def pipeline (bytes : List Byte) : List Byte := (crypt bytes (seedHash bytes)).1

end Sys2Proof.Machine
end

