-- ==== Sys2Proof/Safety.lean ====
section
/-! DEFINITION. The terms in which claims speak of a good state: the invariant of the block between transactions, and when a
transaction is accepted. -/

namespace Sys2Proof.Safety

open Sys2Proof.Machine

/-- What holds of the block between any two transactions: `PHASE = IDLE` (10_state.md R22), the sequencer's counters within
the bounds of 10_state.md R10 and R21, and the memory in its canonical form. -/
structure Inv (b : Block) : Prop where
  idle : b.phase = .idle
  ptr_le : b.ptr ≤ Config.bufBytes
  rem_le : b.rem ≤ Config.bufBytes
  clen_le : b.clen ≤ Config.chunkBytes
  idx_le : b.idx ≤ Config.chunkBytes
  mem_wf : b.mem.wf

/-- The one semantic check of each transaction passes (60_exceptions.md R164 to R167). It looks at the operands, `BASE` and
`LEN` only. -/
def Accepts (b : Block) : Instr → Prop
  | .rd reg => reg ≤ 4
  | .wr reg _ => reg ≤ 2
  | .mrd addr => addr < Config.bufBytes
  | .mwr addr _ => addr < Config.bufBytes
  | .hash => b.base.toNat + b.len.toNat ≤ Config.bufBytes
  | .crypt => b.base.toNat + b.len.toNat ≤ Config.bufBytes

/-- The code with which each transaction is refused when its semantic check fails (60_exceptions.md R161, R167). -/
def refusalCode : Instr → Status
  | .rd _ => .eReg
  | .wr _ _ => .eReg
  | .mrd _ => .eAddr
  | .mwr _ _ => .eAddr
  | .hash => .eRange
  | .crypt => .eRange

/-- Two blocks the host cannot tell apart: equal but for the hidden leftovers `CKEY`, `PTR`, `REM`, `CLEN`, `IDX`
(10_state.md R22). -/
structure SameToHost (a b : Block) : Prop where
  acc_eq : a.acc = b.acc
  key_eq : a.key = b.key
  shift_eq : a.shift = b.shift
  base_eq : a.base = b.base
  len_eq : a.len = b.len
  phase_eq : a.phase = b.phase
  mem_eq : a.mem = b.mem

/-- Every response so far has status `OK`: the premise of a claim about a host program (60_exceptions.md R160). -/
def AllAccepted (s : State) : Prop := ∀ r ∈ s.responses, r.status = .ok

end Sys2Proof.Safety
end

