-- ==== Sys2Proof/Certificates/Slice0/Obligations.lean ====
section
/-! DEFINITION. The statements for the provers, from the numbered rules of spec/. -/

open Sys2Proof Sys2Proof.Machine Sys2Proof.Safety

/-! ## Encoding -/

/-- Decoding the encoding of a transaction gives the transaction back, every operand at every value its field admits
(30_encoding.md sections 2 and 6). -/
def Obligations.DecodeOfEncodeIsTheInstruction : Prop :=
  ∀ i : Instr, i.WellFormed → decode (encode i) = .instr i

/-- A request word the decoder accepts is exactly the encoding of its transaction: no bit of it is ignored (30_encoding.md
section 4, R67 "it is never performed with the field ignored"). -/
def Obligations.AcceptedWordIsTheEncodingOfItsInstruction : Prop :=
  ∀ (q : Request) (i : Instr), decode q = .instr i → encode i = q ∧ i.WellFormed

/-- 30_encoding.md R64: the decoder's answer on every request word, against the match and mask table of R63. -/
def Obligations.DecoderIsTotalAndFollowsTheTable : Prop :=
  ∀ q : Request,
    (decode q = .refused .eOp ↔ opField q ∉ [0x1#4, 0x2#4, 0x3#4, 0x4#4, 0x8#4, 0x9#4]) ∧
    (decode q = .refused .eField ↔
      opField q ∈ [0x1#4, 0x2#4, 0x3#4, 0x4#4, 0x8#4, 0x9#4] ∧ ∀ r ∈ opcodeTable, r.selects q = false) ∧
    ((∃ i, decode q = .instr i) ↔ ∃ r ∈ opcodeTable, r.selects q = true) ∧
    (∀ r ∈ opcodeTable, r.selects q = true → decode q = .instr (instrOf r.op q))

/-- 30_encoding.md section 2: "The six rows are disjoint". -/
def Obligations.OpcodeTableRowsAreDisjoint : Prop :=
  ∀ (q : Request), ∀ r₁ ∈ opcodeTable, ∀ r₂ ∈ opcodeTable,
    r₁.selects q = true → r₂.selects q = true → r₁ = r₂

/-- Request words the spec writes out decode to the transactions they stand for (30_encoding.md section 1; 42_host_access.md
sections 1 and 2; 40_hash.md section 2; 41_crypt.md section 4). -/
def Obligations.SpecifiedRequestWordsDecode : Prop :=
  decode 0x1300000000000000 = .instr (.rd 3) ∧
  decode 0x2200000012345678 = .instr (.wr 2 0x12345678) ∧
  decode 0x3000000000000004 = .instr (.mrd 4) ∧
  decode 0x4000006100000000 = .instr (.mwr 0 0x61) ∧
  decode 0x8000000000000000 = .instr .hash ∧
  decode 0x9000000000000000 = .instr .crypt

/-! ## One step -/

/-- A step takes the host's next request word and performs the transaction it decodes to, or refuses it by the decoder's
code. -/
def Obligations.StepPerformsTheDecodedRequest : Prop :=
  ∀ (s : State) (q : Request) (qs : List Request), s.requests = q :: qs →
    (∀ i, decode q = .instr i → step s = exec i { s with requests := qs }) ∧
    (decode q = .refused .eOp →
      step s = .next { s with requests := qs, responses := s.responses ++ [⟨.eOp, 0⟩] }) ∧
    (decode q = .refused .eField →
      step s = .next { s with requests := qs, responses := s.responses ++ [⟨.eField, 0⟩] })

/-- The MODEL's choice (assumption log 4): while the host presents no request, a step changes nothing. -/
def Obligations.StepWithoutRequestKeepsTheState : Prop :=
  ∀ s : State, s.requests = [] → step s = .next s

/-- 30_encoding.md R62, on the one response that each request gets (R60): the fields of its word, and where `rdata` is zero. -/
def Obligations.EachRequestGetsOneResponseOfTheStatedForm : Prop :=
  ∀ (s : State) (q : Request) (qs : List Request), s.requests = q :: qs →
    ∃ t r, step s = .next t ∧ t.requests = qs ∧ t.responses = s.responses ++ [r] ∧
      (r.word.extractLsb' 32 4).toNat ≤ 5 ∧
      ((r.word.extractLsb' 32 4).toNat = 0 ↔ r.status = .ok) ∧
      r.word.extractLsb' 0 32 = r.rdata ∧
      (r.status ≠ .ok → r.rdata = 0) ∧
      (∀ i, decode q = .instr i → (∀ reg, i ≠ .rd reg) → (∀ a, i ≠ .mrd a) → r.rdata = 0) ∧
      (∀ reg, decode q = .instr (.rd reg) → r.status = .ok → readOperand s.block reg = some r.rdata) ∧
      (∀ a, decode q = .instr (.mrd a) → r.status = .ok → r.rdata = (s.block.mem.get a).setWidth 32)

/-! ## The access transactions -/

/-- `RD` of each of the five registers completes with its value, the block unchanged (42_host_access.md section 1,
10_state.md section 2). -/
def Obligations.RdCompletesWithTheRegister : Prop :=
  ∀ s : State,
    exec (.rd 0) s = .next { s with responses := s.responses ++ [⟨.ok, s.block.base⟩] } ∧
    exec (.rd 1) s = .next { s with responses := s.responses ++ [⟨.ok, s.block.len⟩] } ∧
    exec (.rd 2) s = .next { s with responses := s.responses ++ [⟨.ok, s.block.key⟩] } ∧
    exec (.rd 3) s = .next { s with responses := s.responses ++ [⟨.ok, s.block.acc⟩] } ∧
    exec (.rd 4) s = .next { s with responses := s.responses ++ [⟨.ok, s.block.shift.setWidth 32⟩] }

/-- `WR` of each writable register completes; exactly the one register named changes (42_host_access.md section 1). -/
def Obligations.WrCompletesAndWritesOneRegister : Prop :=
  ∀ (s : State) (v : Word),
    exec (.wr 0 v) s =
      .next { s with block := { s.block with base := v }, responses := s.responses ++ [⟨.ok, 0⟩] } ∧
    exec (.wr 1 v) s =
      .next { s with block := { s.block with len := v }, responses := s.responses ++ [⟨.ok, 0⟩] } ∧
    exec (.wr 2 v) s =
      .next { s with block := { s.block with key := v }, responses := s.responses ++ [⟨.ok, 0⟩] }

/-- `MRD` of an address of the memory completes with the byte there, zero-extended, the block unchanged (42_host_access.md
section 2). -/
def Obligations.MrdCompletesWithTheByte : Prop :=
  ∀ (s : State) (addr : Nat), addr < Config.bufBytes →
    exec (.mrd addr) s =
      .next { s with responses := s.responses ++ [⟨.ok, (s.block.mem.get addr).setWidth 32⟩] }

/-- `MWR` to an address of the memory completes; the byte there is the one stored, every other byte and every register is
unchanged (42_host_access.md section 2). -/
def Obligations.MwrCompletesAndWritesOneByte : Prop :=
  ∀ (s : State) (addr : Nat) (v : Byte), addr < Config.bufBytes →
    ∃ t, exec (.mwr addr v) s = .next t ∧
      t = { s with block := { s.block with mem := t.block.mem }, responses := s.responses ++ [⟨.ok, 0⟩] } ∧
      t.block.mem.get addr = v ∧
      ∀ a, a ≠ addr → t.block.mem.get a = s.block.mem.get a

/-- 60_exceptions.md R166: the register indices for which `RD` and `WR` are refused. -/
def Obligations.RegisterAccessIsRefusedByIndex : Prop :=
  ∀ (s : State) (reg : Nat) (v : Word),
    (5 ≤ reg → exec (.rd reg) s = .next { s with responses := s.responses ++ [⟨.eReg, 0⟩] }) ∧
    (3 ≤ reg → exec (.wr reg v) s = .next { s with responses := s.responses ++ [⟨.eReg, 0⟩] })

/-- 60_exceptions.md R165: `MRD` and `MWR` beyond the memory. -/
def Obligations.AddressBeyondTheMemoryIsRefused : Prop :=
  ∀ (s : State) (addr : Nat) (v : Byte), Config.bufBytes ≤ addr →
    exec (.mrd addr) s = .next { s with responses := s.responses ++ [⟨.eAddr, 0⟩] } ∧
    exec (.mwr addr v) s = .next { s with responses := s.responses ++ [⟨.eAddr, 0⟩] }

/-- What a write transaction writes, the read transaction of the same place returns (20_memory.md section 7, 10_state.md
section 3). -/
def Obligations.WrittenValuesAreReadBack : Prop :=
  ∀ (s t : State),
    (∀ a v, a < Config.bufBytes → exec (.mwr a v) s = .next t →
      exec (.mrd a) t = .next { t with responses := t.responses ++ [⟨.ok, v.setWidth 32⟩] }) ∧
    (∀ reg v, reg ≤ 2 → exec (.wr reg v) s = .next t →
      exec (.rd reg) t = .next { t with responses := t.responses ++ [⟨.ok, v⟩] })

/-! ## Refusals -/

/-- 30_encoding.md R66 and 60_exceptions.md R162: a reserved operation code, whatever the other fields hold. -/
def Obligations.ReservedOperationCodesAreRefused : Prop :=
  (∀ (s : State) (q : Request) (qs : List Request), s.requests = q :: qs →
    opField q ∈ [0x0#4, 0x5#4, 0x6#4, 0x7#4, 0xA#4, 0xB#4, 0xC#4, 0xD#4, 0xE#4, 0xF#4] →
    step s = .next { s with requests := qs, responses := s.responses ++ [⟨.eOp, 0⟩] }) ∧
  ∀ (s : State) (qs : List Request), s.requests = (0 : Request) :: qs →
    step s = .next { s with requests := qs, responses := s.responses ++ [⟨.eOp, 0⟩] }

/-- 60_exceptions.md R163: a valid operation code with a non-zero must-be-zero field, each field of 30_encoding.md R63. -/
def Obligations.NonzeroReservedFieldsAreRefused : Prop :=
  ∀ (s : State) (q : Request) (qs : List Request), s.requests = q :: qs →
    (opField q = 0x1 ∧ (rsvField q ≠ 0 ∨ byteField q ≠ 0 ∨ dataField q ≠ 0) ∨
      opField q = 0x2 ∧ (rsvField q ≠ 0 ∨ byteField q ≠ 0) ∨
      opField q = 0x3 ∧ (rsvField q ≠ 0 ∨ regField q ≠ 0 ∨ byteField q ≠ 0) ∨
      opField q = 0x4 ∧ (rsvField q ≠ 0 ∨ regField q ≠ 0) ∨
      (opField q = 0x8 ∨ opField q = 0x9) ∧
        (rsvField q ≠ 0 ∨ regField q ≠ 0 ∨ byteField q ≠ 0 ∨ dataField q ≠ 0)) →
    step s = .next { s with requests := qs, responses := s.responses ++ [⟨.eField, 0⟩] }

/-- 60_exceptions.md R164: the range check of the two commands, uniform also for an empty window, and what it guarantees. -/
def Obligations.WindowBeyondTheMemoryIsRefused : Prop :=
  ∀ s : State,
    (Config.bufBytes < s.block.base.toNat + s.block.len.toNat →
      exec .hash s = .next { s with responses := s.responses ++ [⟨.eRange, 0⟩] } ∧
      exec .crypt s = .next { s with responses := s.responses ++ [⟨.eRange, 0⟩] }) ∧
    (s.block.base.toNat + s.block.len.toNat ≤ Config.bufBytes →
      (∃ t, exec .hash s = .next t ∧ t.responses = s.responses ++ [⟨.ok, 0⟩]) ∧
      (∃ t, exec .crypt s = .next t ∧ t.responses = s.responses ++ [⟨.ok, 0⟩]) ∧
      ∀ j, j < s.block.len.toNat → s.block.base.toNat + j < Config.bufBytes)

/-- 60_exceptions.md R167: the order of the checks; a request reports the first failure. -/
def Obligations.ChecksAreMadeInTheStatedOrder : Prop :=
  ∀ (s : State) (q : Request) (qs : List Request), s.requests = q :: qs →
    (Op.ofCode (opField q) = none →
      step s = .next { s with requests := qs, responses := s.responses ++ [⟨.eOp, 0⟩] }) ∧
    ∀ op, Op.ofCode (opField q) = some op →
      (reservedFieldsZero op q = false →
        step s = .next { s with requests := qs, responses := s.responses ++ [⟨.eField, 0⟩] }) ∧
      (reservedFieldsZero op q = true →
        (¬ Accepts s.block (instrOf op q) →
          step s = .next { s with requests := qs,
                                  responses := s.responses ++ [⟨refusalCode (instrOf op q), 0⟩] }) ∧
        (Accepts s.block (instrOf op q) →
          ∃ t v, step s = .next t ∧ t.responses = s.responses ++ [⟨.ok, v⟩]))

/-- 60_exceptions.md R160: a refused transaction changes no state of the block, answers a zero, and latches nothing: the next
request is performed as if the refused one had never been issued. -/
def Obligations.RefusedTransactionChangesNothing : Prop :=
  ∀ (s t : State) (q : Request) (qs : List Request) (r : Response), s.requests = q :: qs →
    step s = .next t → t.responses = s.responses ++ [r] → r.status ≠ .ok →
    t.block = s.block ∧ t.requests = qs ∧ r.rdata = 0 ∧
    ∀ u, step { s with requests := qs } = .next u →
      ∃ v l, step t = .next v ∧ v.block = u.block ∧ v.requests = u.requests ∧
        u.responses = s.responses ++ l ∧ v.responses = t.responses ++ l

/-- 60_exceptions.md R168: a transaction whose one semantic check passes completes with `OK`, and nothing but that check (the
operands, `BASE` and `LEN`) decides it. -/
def Obligations.AcceptedTransactionCompletesWithOk : Prop :=
  ∀ (i : Instr) (s : State),
    (Accepts s.block i → ∃ t v, exec i s = .next t ∧ t.responses = s.responses ++ [⟨.ok, v⟩]) ∧
    ∀ t r, exec i s = .next t → t.responses = s.responses ++ [r] → (r.status = .ok ↔ Accepts s.block i)

/-- Nothing stops the block: from every state, with any request word or none, a step answers a next state (60_exceptions.md
section 3, 93_implementation_defined.md section 1). That a step with no request answers one is the model's choice
(assumption log 4). -/
def Obligations.NoStepStops : Prop :=
  ∀ s : State, ∃ t, step s = .next t

/-- A finite list of requests is answered whole, one response each, in as many steps (70_reset_and_hazards.md section 3). -/
def Obligations.EveryFiniteProgramReachesItsEnd : Prop :=
  ∀ s : State, ∃ t, Sys2Proof.core.run s.requests.length s = .next t ∧ t.requests = [] ∧
    t.responses.length = s.responses.length + s.requests.length

/-! ## The seed hash -/

/-- 40_hash.md R81: one multiply-add, reduced modulo 2^32 once at the end or after each operation. -/
def Obligations.HashStepIsMultiplyAddModulo : Prop :=
  ∀ (a : Word) (b : Byte),
    (hstep a b).toNat = (a.toNat * 33 + b.toNat) % 2 ^ 32 ∧
    (hstep a b).toNat = (a.toNat * 33 % 2 ^ 32 + b.toNat) % 2 ^ 32

/-- 40_hash.md R84: the closed form of the hash, the fold over a concatenation, and 33 as a shift and an addition. -/
def Obligations.SeedHashHasItsClosedForm : Prop :=
  (∀ B : List Byte,
    (seedHash B).toNat =
      (5381 * 33 ^ B.length + ∑ j ∈ Finset.range B.length, (B.getD j 0).toNat * 33 ^ (B.length - 1 - j)) % 2 ^ 32) ∧
  (∀ (a : Word) (X Y : List Byte), hfold a (X ++ Y) = hfold (hfold a X) Y) ∧
  ∀ a : Word, mul32 a 33 = add32 (shl32 a 5) a

/-- `HASH` over a window that fits completes with the seed of the window in `ACC`; besides, only the hidden `PTR`, `REM`,
`PHASE` change (40_hash.md section 2, 10_state.md section 4). -/
def Obligations.HashCompletesWithTheSeedOfTheWindow : Prop :=
  ∀ s : State, s.block.base.toNat + s.block.len.toNat ≤ Config.bufBytes →
    exec .hash s =
      .next { s with
        block := { s.block with
          acc := seedHash (window s.block), ptr := s.block.base.toNat + s.block.len.toNat, rem := 0, phase := .idle }
        responses := s.responses ++ [⟨.ok, 0⟩] }

/-- 40_hash.md R88: the sequencer's run from the start state of R86, byte by byte, and its end after exactly `LEN + 1`
steps in the state `HASH` gives. -/
def Obligations.HashSequencerRefinesHash : Prop :=
  ∀ b : Block, b.base.toNat + b.len.toNat ≤ Config.bufBytes →
    (∀ k, k ≤ b.len.toNat →
      runSeq k (hashStart b) =
        .ok { b with
          acc := hfold Config.hashInit ((window b).take k), ptr := b.base.toNat + k, rem := b.len.toNat - k,
          phase := .hRun }) ∧
    runSeq (b.len.toNat + 1) (hashStart b) =
      .ok { b with
        acc := seedHash (window b), ptr := b.base.toNat + b.len.toNat, rem := 0, phase := .idle }

/-! ## The transform -/

/-- 41_crypt.md R123: the word primitives of the family, bit by bit. -/
def Obligations.WordPrimitivesActBitByBit : Prop :=
  ∀ (k : Word) (s : ShiftAmt),
    (∀ i, i < 32 → (rotl32 k s).getLsbD ((i + s.toNat) % 32) = k.getLsbD i) ∧
    rotl32 k 0 = k ∧
    (∀ i, (bit32 s).getLsbD i = decide (i = s.toNat)) ∧
    (∀ n, n < 32 → (shr32 k n).toNat = k.toNat / 2 ^ n ∧ (shl32 k n).toNat = k.toNat * 2 ^ n % 2 ^ 32) ∧
    (nextShift s).toNat = (s.toNat + 5) % 32 ∧
    ∀ i, (lowByte k).getLsbD i = (decide (i < 8) && k.getLsbD i)

/-- 41_crypt.md R103 (with R101 and R104): the key update uses the new shift, the shift of the n-th update, the first update
with shift 5, and the shift 0 at every 32nd chunk, which needs `L >= 125`. -/
def Obligations.ShiftIsZeroExactlyAtEvery32ndUpdate : Prop :=
  (∀ n, (scheduleShift n).toNat = 5 * n % 32) ∧
  (∀ n, 1 ≤ n → (scheduleShift n = 0 ↔ 32 ∣ n)) ∧
  (∀ K n, scheduleKey K (n + 1) = nextKey (scheduleKey K n) (nextShift (scheduleShift n))) ∧
  (∀ K, scheduleKey K 1 = nextKey K 5) ∧
  (∀ L, 32 ≤ chunkCount L ↔ 125 ≤ L) ∧
  ∀ k, rotl32 k 0 = k

/-- 41_crypt.md R120: the shift sequence, its period, and that a period visits every value once. -/
def Obligations.ShiftSequenceVisitsEveryValueOncePerPeriod : Prop :=
  (List.range 32).map (fun n => (scheduleShift (n + 1)).toNat) =
    [5, 10, 15, 20, 25, 30, 3, 8, 13, 18, 23, 28, 1, 6, 11, 16, 21, 26, 31, 4, 9, 14, 19, 24, 29, 2, 7, 12, 17, 22,
      27, 0] ∧
  (∀ n, scheduleShift (n + 32) = scheduleShift n) ∧
  (∀ v : ShiftAmt, ∃! n, n < 32 ∧ scheduleShift (n + 1) = v) ∧
  ∀ (B : List Byte) (K : Word), B.length = 63 → chunkCount B.length = 16 ∧ (crypt B K).2.2 = 16

/-- 41_crypt.md R121: the key update at shift 0, and what it does to every schedule from `K_32` on. -/
def Obligations.KeyCollapsesAtShiftZero : Prop :=
  (∀ k : Word, nextKey k 0 = if k.getLsbD 0 then 0 else 1) ∧
  (∀ K : Word, scheduleKey K 32 = 0 ∨ scheduleKey K 32 = 1) ∧
  (∀ K K' : Word, scheduleKey K 32 = scheduleKey K' 32 → ∀ n, scheduleKey K (32 + n) = scheduleKey K' (32 + n)) ∧
  ∀ L, L ≤ 124 → chunkCount L < 32

/-- 41_crypt.md R107: the closed form of the transform. -/
def Obligations.CryptIsXorWithTheKeySchedule : Prop :=
  ∀ (B : List Byte) (K : Word),
    (crypt B K).1.length = B.length ∧
    (∀ j, (crypt B K).1[j]? =
      B[j]?.map fun c => c ^^^ (shr32 (scheduleKey K (j / 4)) (8 * (j % 4))).setWidth 8) ∧
    (crypt B K).2.1 = scheduleKey K (chunkCount B.length) ∧
    (crypt B K).2.2 = scheduleShift (chunkCount B.length) ∧
    (crypt B K).2.2.toNat = 5 * chunkCount B.length % 32 ∧
    chunkCount B.length = (B.length + 3) / 4

/-- 41_crypt.md R109: the empty buffer, as a function and as a command; the command still clears `SHIFT`. -/
def Obligations.EmptyBufferIsUntouched : Prop :=
  (∀ K : Word, crypt [] K = ([], K, 0)) ∧
  ∀ s : State, s.block.len = 0 → s.block.base.toNat ≤ Config.bufBytes →
    exec .crypt s =
      .next { s with
        block := { s.block with shift := 0, ptr := s.block.base.toNat, rem := 0, phase := .idle }
        responses := s.responses ++ [⟨.ok, 0⟩] }

/-- 41_crypt.md R117: the transform is an involution under a fixed initial key. -/
def Obligations.CryptIsAnInvolutionUnderAFixedKey : Prop :=
  ∀ (B : List Byte) (K : Word),
    crypt (crypt B K).1 K = (B, scheduleKey K (chunkCount B.length), scheduleShift (chunkCount B.length))

/-- The keystream law and the prefix law of 41_crypt.md section 6. -/
def Obligations.CryptXorsTheKeystreamAndKeepsPrefixes : Prop :=
  ∀ (B : List Byte) (K : Word),
    (crypt B K).1 = List.zipWith (· ^^^ ·) B (crypt (List.replicate B.length 0) K).1 ∧
    ∀ L, L ≤ B.length → (crypt (B.take L) K).1 = (crypt B K).1.take L

/-- `CRYPT` over a window that fits completes with the window transformed under `KEY`, the final key and shift in `KEY` and
`SHIFT`, every byte outside the window and every other register of the host unchanged (41_crypt.md section 4). -/
def Obligations.CryptCompletesWithTheWindowTransformed : Prop :=
  ∀ s : State, s.block.base.toNat + s.block.len.toNat ≤ Config.bufBytes →
    ∃ t, exec .crypt s = .next t ∧
      window t.block = (crypt (window s.block) s.block.key).1 ∧
      t.block.key = (crypt (window s.block) s.block.key).2.1 ∧
      t.block.shift = (crypt (window s.block) s.block.key).2.2 ∧
      (∀ a, a < s.block.base.toNat ∨ s.block.base.toNat + s.block.len.toNat ≤ a →
        t.block.mem.get a = s.block.mem.get a) ∧
      t.block.acc = s.block.acc ∧ t.block.base = s.block.base ∧ t.block.len = s.block.len ∧
      t.block.phase = .idle ∧ t.requests = s.requests ∧ t.responses = s.responses ++ [⟨.ok, 0⟩]

/-- The hidden leftovers of a `CRYPT` of at least one byte, as 10_state.md section 4 lists them. -/
def Obligations.CryptLeavesTheStatedHiddenValues : Prop :=
  ∀ s t : State, s.block.base.toNat + s.block.len.toNat ≤ Config.bufBytes → 1 ≤ s.block.len.toNat →
    exec .crypt s = .next t →
    t.block.ptr = s.block.base.toNat + s.block.len.toNat ∧ t.block.rem = 0 ∧
    t.block.clen = s.block.len.toNat - 4 * (chunkCount s.block.len.toNat - 1) ∧
    t.block.idx = t.block.clen ∧
    t.block.ckey =
      if t.block.clen < 4 then
        shr32 (scheduleKey s.block.key (chunkCount s.block.len.toNat - 1)) (8 * t.block.clen)
      else 0

/-- 41_crypt.md R116: the sequencer's run from the start state of R112, its invariant at each `C_CHUNK`, and its end after
exactly `L + 3N + 1` steps in the state `CRYPT` gives. -/
def Obligations.CryptSequencerRefinesCrypt : Prop :=
  ∀ b : Block, b.base.toNat + b.len.toNat ≤ Config.bufBytes →
    (∀ n, n ≤ chunkCount b.len.toNat →
      ∃ c, runSeq (min (4 * n) b.len.toNat + 3 * n) (cryptStart b) = .ok c ∧ c.phase = .cChunk ∧
        c.ptr = b.base.toNat + min (4 * n) b.len.toNat ∧ c.rem = b.len.toNat - min (4 * n) b.len.toNat ∧
        c.key = scheduleKey b.key n ∧ c.shift = scheduleShift n ∧
        window c = (crypt (window b) b.key).1.take (min (4 * n) b.len.toNat) ++
          (window b).drop (min (4 * n) b.len.toNat)) ∧
    (∃ c, runSeq (b.len.toNat + 3 * chunkCount b.len.toNat + 1) (cryptStart b) = .ok c ∧ c.phase = .idle ∧
      ∀ s : State, s.block = b →
        exec .crypt s = .next { s with block := c, responses := s.responses ++ [⟨.ok, 0⟩] }) ∧
    ∀ m, m < b.len.toNat + 3 * chunkCount b.len.toNat + 1 →
      ∀ c, runSeq m (cryptStart b) = .ok c → c.phase ≠ .idle

/-- 20_memory.md R56 with the table of R42: the accesses of each transaction, in order; each byte of the window once. -/
def Obligations.AccessesAreMadeInTheStatedOrder : Prop :=
  ∀ b : Block,
    (∀ reg v, execEvents (.rd reg) b = [] ∧ execEvents (.wr reg v) b = []) ∧
    (∀ a v, a < Config.bufBytes → execEvents (.mrd a) b = [.read a] ∧ execEvents (.mwr a v) b = [.write a v]) ∧
    (b.base.toNat + b.len.toNat ≤ Config.bufBytes →
      execEvents .hash b = (List.range b.len.toNat).map (fun j => .read (b.base.toNat + j)) ∧
      execEvents .crypt b =
        (List.range b.len.toNat).flatMap fun j =>
          [.read (b.base.toNat + j), .write (b.base.toNat + j) ((crypt (window b) b.key).1.getD j 0)])

/-! ## What the transactions leave alone, and what they depend on -/

/-- Which transactions write which element of the state: every other one leaves it (10_state.md sections 1 to 4, 20_memory.md
section 1). -/
def Obligations.EachElementIsWrittenOnlyByItsWriters : Prop :=
  ∀ (i : Instr) (s t : State), exec i s = .next t →
    (i ≠ .hash → t.block.acc = s.block.acc) ∧
    (i ≠ .crypt → (∀ v, i ≠ .wr 2 v) → t.block.key = s.block.key) ∧
    (i ≠ .crypt → t.block.shift = s.block.shift ∧ t.block.ckey = s.block.ckey ∧ t.block.clen = s.block.clen ∧
      t.block.idx = s.block.idx) ∧
    ((∀ v, i ≠ .wr 0 v) → t.block.base = s.block.base) ∧
    ((∀ v, i ≠ .wr 1 v) → t.block.len = s.block.len) ∧
    (i ≠ .hash → i ≠ .crypt →
      t.block.phase = s.block.phase ∧ t.block.ptr = s.block.ptr ∧ t.block.rem = s.block.rem) ∧
    (i ≠ .crypt → (∀ a v, i ≠ .mwr a v) → t.block.mem = s.block.mem) ∧
    t.requests = s.requests

/-- 41_crypt.md R122: a command writes only bytes of the window, and its results depend on no other byte. -/
def Obligations.CommandsStayInsideTheWindow : Prop :=
  ∀ (i : Instr) (s t : State), i = .hash ∨ i = .crypt → exec i s = .next t →
    (∀ a, a < s.block.base.toNat ∨ s.block.base.toNat + s.block.len.toNat ≤ a →
      t.block.mem.get a = s.block.mem.get a) ∧
    ∀ (m : Memory) (t' : State), window { s.block with mem := m } = window s.block →
      exec i { s with block := { s.block with mem := m } } = .next t' →
      t'.block.acc = t.block.acc ∧ t'.block.key = t.block.key ∧ t'.block.shift = t.block.shift ∧
        window t'.block = window t.block ∧ t'.responses = t.responses

/-- Where the window lies does not matter: chunks are counted from `BASE` (20_memory.md section 3). -/
def Obligations.WindowPositionDoesNotMatter : Prop :=
  ∀ s₁ s₂ : State,
    s₁.block.base.toNat + s₁.block.len.toNat ≤ Config.bufBytes →
    s₂.block.base.toNat + s₂.block.len.toNat ≤ Config.bufBytes →
    window s₁.block = window s₂.block →
    (∃ t₁ t₂, exec .hash s₁ = .next t₁ ∧ exec .hash s₂ = .next t₂ ∧ t₁.block.acc = t₂.block.acc) ∧
    (s₁.block.key = s₂.block.key →
      ∃ t₁ t₂, exec .crypt s₁ = .next t₁ ∧ exec .crypt s₂ = .next t₂ ∧ window t₁.block = window t₂.block ∧
        t₁.block.key = t₂.block.key ∧ t₁.block.shift = t₂.block.shift)

/-- The hidden leftovers are never observed: from two states the host cannot tell apart, a step gives two states it cannot
tell apart, with the same responses (10_state.md section 4). -/
def Obligations.HiddenLeftoversAreNeverObserved : Prop :=
  ∀ s₁ s₂ t₁ : State, SameToHost s₁.block s₂.block → s₁.requests = s₂.requests → s₁.responses = s₂.responses →
    step s₁ = .next t₁ →
    ∃ t₂, step s₂ = .next t₂ ∧ SameToHost t₁.block t₂.block ∧ t₁.requests = t₂.requests ∧
      t₁.responses = t₂.responses

/-- 20_memory.md R48: reads change nothing of the block, a repeated write or `HASH` gives the same block as one, and `CRYPT`
is not idempotent. -/
def Obligations.RepeatingATransaction : Prop :=
  (∀ (reg : Nat) (s t : State), exec (.rd reg) s = .next t → t.block = s.block) ∧
  (∀ (a : Nat) (s t : State), exec (.mrd a) s = .next t → t.block = s.block) ∧
  (∀ (i : Instr) (s t u : State), i ≠ .crypt → exec i s = .next t → exec i t = .next u → u.block = t.block) ∧
  ∃ s t u : State, exec .crypt s = .next t ∧ exec .crypt t = .next u ∧ u.block.key ≠ t.block.key ∧
    window u.block ≠ window t.block

/-! ## Sequences of transactions -/

/-- The key hazard: a second `CRYPT` starts from the key the first left; with the key written again it restores every byte of
the memory (70_reset_and_hazards.md section 3, 41_crypt.md section 6). -/
def Obligations.SecondCryptRestoresWithTheKeyReloaded : Prop :=
  ∀ s t : State, s.block.base.toNat + s.block.len.toNat ≤ Config.bufBytes → exec .crypt s = .next t →
    (∃ u, exec .crypt t = .next u ∧
      window u.block =
        (crypt (window t.block) (scheduleKey s.block.key (chunkCount s.block.len.toNat))).1) ∧
    ∃ u v, exec (.wr 2 s.block.key) t = .next u ∧ exec .crypt u = .next v ∧
      (∀ a, v.block.mem.get a = s.block.mem.get a) ∧ v.block.key = t.block.key ∧ v.block.shift = t.block.shift

/-- The verification pipeline's four transactions on a window that fits: hash, read the seed, write it into `KEY`, transform
(42_host_access.md section 3). -/
def Obligations.PipelineTransformsUnderItsOwnSeed : Prop :=
  ∀ s : State, s.block.base.toNat + s.block.len.toNat ≤ Config.bufBytes →
    ∃ s₁ s₂ s₃ t, exec .hash s = .next s₁ ∧
      exec (.rd 3) s₁ = .next s₂ ∧ s₂.responses = s₁.responses ++ [⟨.ok, seedHash (window s.block)⟩] ∧
      exec (.wr 2 (seedHash (window s.block))) s₂ = .next s₃ ∧
      exec .crypt s₃ = .next t ∧
      window t.block = pipeline (window s.block) ∧ (pipeline (window s.block)).length = s.block.len.toNat ∧
      t.block.acc = seedHash (window s.block) ∧
      t.block.key = scheduleKey (seedHash (window s.block)) (chunkCount s.block.len.toNat) ∧
      t.block.shift.toNat = 5 * chunkCount s.block.len.toNat % 32

/-! ## Invariant and reset -/

/-- Every step keeps the invariant of the block between transactions: `PHASE = IDLE`, the sequencer's counters within their
bounds, the memory in canonical form (10_state.md sections 1 and 4; the canonical form is the model's, assumption log 2). -/
def Obligations.EveryStepKeepsTheBlockInvariant : Prop :=
  ∀ s t : State, Inv s.block → step s = .next t → Inv t.block

/-- The invariant holds after reset; the counters' zeros there are the model's choice (assumption log 3). -/
def Obligations.ResetStateMeetsTheBlockInvariant : Prop :=
  Inv State.reset.block

/-- The reset values the spec gives (10_state.md section 7): the five visible registers zero, `PHASE` idle. -/
def Obligations.ResetLeavesTheStatedValues : Prop :=
  State.reset.block.base = 0 ∧ State.reset.block.len = 0 ∧ State.reset.block.key = 0 ∧
  State.reset.block.acc = 0 ∧ State.reset.block.shift = 0 ∧ State.reset.block.phase = .idle

/-- What the reset event does not do (70_reset_and_hazards.md section 1): no command runs, no 5381 is loaded, nothing is fetched.
That every byte of the memory reads as before is the model's choice (assumption log 9): 70_reset_and_hazards.md R190 leaves the
memory unspecified after a reset, and the model reads the last line of the table of 10_state.md R29 literally. -/
def Obligations.ResetEventPerformsNothing : Prop :=
  ∀ s : State,
    s.resetEvent.block.acc = 0 ∧ s.resetEvent.block.acc ≠ Config.hashInit ∧
    (∀ a, s.resetEvent.block.mem.get a = s.block.mem.get a) ∧
    s.resetEvent.requests = s.requests ∧ s.resetEvent.responses = s.responses
end

