-- ==== Sys2Proof/Laws/Arith.lean ====
section
/-! SUPPORT. The word primitives as arithmetic on natural numbers (00_scope.md R7). -/

namespace Sys2Proof.Machine

theorem add32_toNat (a b : Word) : (add32 a b).toNat = (a.toNat + b.toNat) % 2 ^ 32 := by
  simp [add32, BitVec.toNat_add]

theorem mul32_toNat (a b : Word) : (mul32 a b).toNat = a.toNat * b.toNat % 2 ^ 32 := by
  simp [mul32, BitVec.toNat_mul]

theorem shl32_toNat (a : Word) (s : Nat) : (shl32 a s).toNat = a.toNat * 2 ^ s % 2 ^ 32 := by
  simp [shl32, BitVec.toNat_shiftLeft, Nat.shiftLeft_eq]

theorem shr32_toNat (a : Word) (s : Nat) : (shr32 a s).toNat = a.toNat / 2 ^ s := by
  simp [shr32, BitVec.toNat_ushiftRight, Nat.shiftRight_eq_div_pow]

theorem rotl32_zero (a : Word) : rotl32 a 0 = a := by simp [rotl32]

theorem zextByte_toNat (b : Byte) : (zextByte b).toNat = b.toNat := by
  have := b.isLt
  simp only [zextByte, BitVec.toNat_setWidth]
  omega

theorem zextShift_toNat (s : ShiftAmt) : (zextShift s).toNat = s.toNat := by
  have := s.isLt
  simp only [zextShift, BitVec.toNat_setWidth]
  omega

theorem nextShift_toNat (s : ShiftAmt) : (nextShift s).toNat = (s.toNat + 5) % 32 := by
  simp [nextShift, Config.shiftStep, Config.shiftMod]

@[simp] theorem hfold_nil (a : Word) : hfold a [] = a := rfl

@[simp] theorem hfold_cons (a : Word) (b : Byte) (t : List Byte) : hfold a (b :: t) = hfold (hstep a b) t := rfl

/-- One more byte at the end of the fold. -/
theorem hfold_concat (a : Word) (t : List Byte) (b : Byte) : hfold a (t ++ [b]) = hstep (hfold a t) b := by
  induction t generalizing a with
  | nil => rfl
  | cons c t ih => exact ih _

@[simp] theorem cloopFuel_nil (n : Nat) (k : Word) (s : ShiftAmt) : cloopFuel n [] k s = ([], k, s) := by
  cases n <;> rfl

@[simp] theorem xchunk_length (c : List Byte) (k : Word) : (xchunk c k).length = c.length := by
  simp [xchunk]

theorem cloopFuel_step (n : Nat) (B : List Byte) (k : Word) (s : ShiftAmt) (h : B ≠ []) :
    cloopFuel (n + 1) B k s =
      (xchunk (B.take 4) k ++ (cloopFuel n (B.drop 4) (nextKey k (nextShift s)) (nextShift s)).1,
        (cloopFuel n (B.drop 4) (nextKey k (nextShift s)) (nextShift s)).2) := by
  cases B with
  | nil => exact absurd rfl h
  | cons b bs =>
    simp only [cloopFuel, Config.chunkBytes]
    rcases Nat.le_total (b :: bs).length 4 with hl | hl
    · rw [Nat.min_eq_left hl, List.take_of_length_le (le_refl _), List.drop_of_length_le (le_refl _),
        List.take_of_length_le hl, List.drop_of_length_le hl]
    · rw [Nat.min_eq_right hl]

/-- Fuel beyond the number of bytes changes nothing. -/
theorem cloopFuel_enough (n : Nat) (B : List Byte) (k : Word) (s : ShiftAmt) (h : B.length ≤ n) :
    cloopFuel n B k s = cloop B k s := by
  suffices H : ∀ m n (B : List Byte) (k : Word) (s : ShiftAmt), B.length ≤ n → B.length ≤ m →
      cloopFuel n B k s = cloopFuel m B k s from H _ _ _ _ _ h (le_refl _)
  intro m
  induction m with
  | zero =>
    intro n B k s _ hm
    rw [List.length_eq_zero_iff.mp (Nat.le_zero.mp hm)]
    simp
  | succ m ih =>
    intro n B k s hn hm
    by_cases hB : B = []
    · simp [hB]
    · obtain ⟨n, rfl⟩ : ∃ n', n = n' + 1 :=
        ⟨n - 1, by have := List.length_pos_iff.mpr hB; omega⟩
      have hd : (B.drop 4).length ≤ m ∧ (B.drop 4).length ≤ n := by
        have := List.length_pos_iff.mpr hB
        simp only [List.length_drop]; omega
      rw [cloopFuel_step _ _ _ _ hB, cloopFuel_step _ _ _ _ hB, ih n _ _ _ hd.2 hd.1]

@[simp] theorem cloop_nil (k : Word) (s : ShiftAmt) : cloop [] k s = ([], k, s) := rfl

/-- The recursion of 41_crypt.md R106 on a buffer that is not empty. -/
theorem cloop_step (B : List Byte) (k : Word) (s : ShiftAmt) (h : B ≠ []) :
    cloop B k s =
      (xchunk (B.take 4) k ++ (cloop (B.drop 4) (nextKey k (nextShift s)) (nextShift s)).1,
        (cloop (B.drop 4) (nextKey k (nextShift s)) (nextShift s)).2) := by
  have hp := List.length_pos_iff.mpr h
  have e : cloop B k s = cloopFuel ((B.length - 1) + 1) B k s :=
    (cloopFuel_enough _ _ _ _ (by omega)).symm
  rw [e, cloopFuel_step _ _ _ _ h, cloopFuel_enough _ _ _ _ (by simp only [List.length_drop]; omega)]

end Sys2Proof.Machine
end

