-- ==== Sys2Proof/Laws/Decode.lean ====
section
/-! SUPPORT. The fields of a request word built from fields, and the opcode map in both directions. -/

namespace Sys2Proof

variable (op reg : BitVec 4) (rsv : BitVec 16) (byte : Byte) (data : Word)

@[simp] theorem opField_requestWord : opField (requestWord op reg rsv byte data) = op := by
  ext i hi
  simp only [opField, requestWord, BitVec.getElem_extractLsb', BitVec.getLsbD_append]
  simp [show ¬ (60 + i < 32) by omega, show ¬ (60 + i - 32 < 8) by omega, show ¬ (60 + i - 32 - 8 < 16) by omega,
    show ¬ (60 + i - 32 - 8 - 16 < 4) by omega, show 60 + i - 32 - 8 - 16 - 4 = i by omega, BitVec.getLsbD_eq_getElem hi]

@[simp] theorem regField_requestWord : regField (requestWord op reg rsv byte data) = reg := by
  ext i hi
  simp only [regField, requestWord, BitVec.getElem_extractLsb', BitVec.getLsbD_append]
  simp [show ¬ (56 + i < 32) by omega, show ¬ (56 + i - 32 < 8) by omega, show ¬ (56 + i - 32 - 8 < 16) by omega,
    show 56 + i - 32 - 8 - 16 = i by omega, hi]

@[simp] theorem rsvField_requestWord : rsvField (requestWord op reg rsv byte data) = rsv := by
  ext i hi
  simp only [rsvField, requestWord, BitVec.getElem_extractLsb', BitVec.getLsbD_append]
  simp [show ¬ (40 + i < 32) by omega, show ¬ (40 + i - 32 < 8) by omega, show 40 + i - 32 - 8 = i by omega, hi]

@[simp] theorem byteField_requestWord : byteField (requestWord op reg rsv byte data) = byte := by
  ext i hi
  simp only [byteField, requestWord, BitVec.getElem_extractLsb', BitVec.getLsbD_append]
  simp [show ¬ (32 + i < 32) by omega, show 32 + i - 32 = i by omega, hi]

@[simp] theorem dataField_requestWord : dataField (requestWord op reg rsv byte data) = data := by
  ext i hi
  simp only [dataField, requestWord, BitVec.getElem_extractLsb', BitVec.getLsbD_append]
  simp [hi]

/-- Every request word is the word of its five fields: no bit lies outside them (30_encoding.md R61). -/
theorem requestWord_fields (q : Request) :
    requestWord (opField q) (regField q) (rsvField q) (byteField q) (dataField q) = q := by
  apply BitVec.eq_of_getLsbD_eq
  intro i hi
  simp only [requestWord, opField, regField, rsvField, byteField, dataField, BitVec.getLsbD_append,
    BitVec.getLsbD_extractLsb']
  by_cases h1 : i < 32
  · simp [h1]
  by_cases h2 : i - 32 < 8
  · simp [h1, h2, show 32 + (i - 32) = i by omega]
  by_cases h3 : i - 32 - 8 < 16
  · simp [h1, h2, h3, show 40 + (i - 32 - 8) = i by omega]
  by_cases h4 : i - 32 - 8 - 16 < 4
  · simp [h1, h2, h3, h4, show 56 + (i - 32 - 8 - 16) = i by omega]
  · simp [h1, h2, h3, h4, show i - 32 - 8 - 16 - 4 < 4 by omega, show 60 + (i - 32 - 8 - 16 - 4) = i by omega]

@[simp] theorem ofCode_code (o : Op) : Op.ofCode o.code = some o := by cases o <;> rfl

/-- A code names an operation exactly when it is that operation's code. -/
theorem ofCode_eq_some {c : BitVec 4} {o : Op} : Op.ofCode c = some o ↔ c = o.code := by
  revert c; cases o <;> decide

/-- The ten reserved codes (30_encoding.md R66). -/
theorem ofCode_eq_none {c : BitVec 4} :
    Op.ofCode c = none ↔ c ∈ [0x0#4, 0x5#4, 0x6#4, 0x7#4, 0xA#4, 0xB#4, 0xC#4, 0xD#4, 0xE#4, 0xF#4] := by
  revert c; decide

/-- Everything the decoder can answer (30_encoding.md R64). -/
theorem decode_cases (q : Request) :
    (Op.ofCode (opField q) = none ∧ decode q = .refused .eOp) ∨
    (∃ o, Op.ofCode (opField q) = some o ∧ reservedFieldsZero o q = false ∧ decode q = .refused .eField) ∨
    (∃ o, Op.ofCode (opField q) = some o ∧ reservedFieldsZero o q = true ∧ decode q = .instr (instrOf o q)) := by
  cases h : Op.ofCode (opField q) with
  | none => exact .inl ⟨rfl, by simp [decode, h]⟩
  | some o =>
    cases hz : reservedFieldsZero o q with
    | false => exact .inr (.inl ⟨o, rfl, hz, by simp [decode, h, hz]⟩)
    | true => exact .inr (.inr ⟨o, rfl, hz, by simp [decode, h, hz]⟩)

end Sys2Proof
end

