-- ==== Sys2Proof/Laws/Memory.lean ====
section
/-! SUPPORT. The laws of the buffer memory: read after write, and the canonical form, which every memory operation keeps. -/

namespace Sys2Proof.Machine

@[simp] theorem lookup_nil (a : Nat) : Memory.lookup [] a = none := rfl

@[simp] theorem lookup_cons (b a : Nat) (v : Byte) (m : Memory) :
    Memory.lookup ((b, v) :: m) a = if a = b then some v else m.lookup a := rfl

/-- A write sets the byte it names and no other. -/
@[simp] theorem lookup_set (m : Memory) (a b : Nat) (v : Byte) :
    (m.set a v).lookup b = if b = a then some v else m.lookup b := by
  induction m with
  | nil => rfl
  | cons c m ih =>
    obtain ⟨k, w⟩ := c
    simp only [Memory.set]
    split
    · rfl
    · split
      · subst_vars
        simp only [lookup_cons]
        split <;> rfl
      · simp only [lookup_cons, ih]
        split <;> split <;> simp_all

/-- `MemRead` after `MemWrite` (20_memory.md R41). -/
@[simp] theorem get_set (m : Memory) (a b : Nat) (v : Byte) :
    (m.set a v).get b = if b = a then v else m.get b := by
  simp only [Memory.get, lookup_set]
  split <;> simp

theorem get_set_self (m : Memory) (a : Nat) (v : Byte) : (m.set a v).get a = v := by simp

theorem get_set_of_ne (m : Memory) {a b : Nat} (v : Byte) (h : b ≠ a) : (m.set a v).get b = m.get b := by
  simp [h]

theorem mem_set {m : Memory} {a : Nat} {v : Byte} {c : Host.Cell} (h : c ∈ m.set a v) :
    c = (a, v) ∨ c ∈ m := by
  induction m with
  | nil => simpa [Memory.set] using h
  | cons d m ih =>
    obtain ⟨k, w⟩ := d
    simp only [Memory.set] at h
    split at h
    · simpa using h
    · split at h
      · simp only [List.mem_cons] at h ⊢; tauto
      · simp only [List.mem_cons] at h ⊢
        rcases h with h | h
        · exact .inr (.inl h)
        · rcases ih h with h | h
          · exact .inl h
          · exact .inr (.inr h)

theorem wf_nil : Memory.wf [] := by simp [Memory.wf]

/-- A write of a byte of the memory keeps the canonical form. -/
theorem wf_set {m : Memory} {a : Nat} (v : Byte) (h : m.wf) (ha : a < Config.bufBytes) : (m.set a v).wf := by
  obtain ⟨hp, hb⟩ := h
  refine ⟨?_, fun c hc => ?_⟩
  · clear hb
    induction m with
    | nil => simp [Memory.set]
    | cons d m ih =>
      obtain ⟨k, w⟩ := d
      rw [List.pairwise_cons] at hp
      simp only [Memory.set]
      split
      · rename_i hlt
        refine List.pairwise_cons.mpr ⟨fun c hc => ?_, List.pairwise_cons.mpr hp⟩
        rcases List.mem_cons.mp hc with rfl | hc
        · exact hlt
        · exact lt_trans hlt (hp.1 c hc)
      · split
        · rename_i heq
          subst heq
          exact List.pairwise_cons.mpr hp
        · rename_i hlt hne
          refine List.pairwise_cons.mpr ⟨fun c hc => ?_, ih hp.2⟩
          rcases mem_set hc with rfl | hc
          · exact lt_of_le_of_ne (Nat.le_of_not_lt hlt) (Ne.symm hne)
          · exact hp.1 c hc
  · rcases mem_set hc with rfl | hc
    · exact ha
    · exact hb c hc

theorem memRead_cases {b : Block} {a : Nat} {v : Byte} (h : memRead b a = .ok v) :
    a < Config.bufBytes ∧ v = b.mem.get a := by
  by_cases ha : a < Config.bufBytes
  · exact ⟨ha, by simpa [memRead, addrInMemory, ha, eq_comm] using h⟩
  · simp [memRead, addrInMemory, ha] at h

theorem memRead_of_lt {b : Block} {a : Nat} (h : a < Config.bufBytes) : memRead b a = .ok (b.mem.get a) := by
  simp [memRead, addrInMemory, h]

theorem memWrite_cases {b b' : Block} {a : Nat} {v : Byte} (h : memWrite b a v = .ok b') :
    a < Config.bufBytes ∧ b' = { b with mem := b.mem.set a v } := by
  by_cases ha : a < Config.bufBytes
  · exact ⟨ha, by simpa [memWrite, addrInMemory, ha, eq_comm] using h⟩
  · simp [memWrite, addrInMemory, ha] at h

theorem memWrite_of_lt {b : Block} {a : Nat} (v : Byte) (h : a < Config.bufBytes) :
    memWrite b a v = .ok { b with mem := b.mem.set a v } := by
  simp [memWrite, addrInMemory, h]

/-- Reset lists no byte, so its memory is in canonical form. -/
theorem reset_mem_wf : State.reset.block.mem.wf := wf_nil

/-- The reset event keeps the memory. -/
theorem resetEvent_mem_wf {s : State} (h : s.block.mem.wf) : s.resetEvent.block.mem.wf := h

end Sys2Proof.Machine
end

