-- ==== Sys2Proof/Laws/State.lean ====
section
/-! SUPPORT. One lemma per field per update of the state: responding, presenting a request, the reset event, and the start
states of the two commands. -/

namespace Sys2Proof.Machine

variable (s : State) (b : Block) (status : Status) (rdata : Word) (q : Request)

@[simp] theorem respond_block : (s.respond status rdata).block = s.block := rfl
@[simp] theorem respond_requests : (s.respond status rdata).requests = s.requests := rfl
@[simp] theorem respond_responses :
    (s.respond status rdata).responses = s.responses ++ [⟨status, rdata⟩] := rfl

@[simp] theorem refuse_block : (s.refuse status).block = s.block := rfl
@[simp] theorem refuse_requests : (s.refuse status).requests = s.requests := rfl
@[simp] theorem refuse_responses : (s.refuse status).responses = s.responses ++ [⟨status, 0⟩] := rfl

@[simp] theorem present_block : (s.present q).block = s.block := rfl
@[simp] theorem present_requests : (s.present q).requests = q :: s.requests := rfl
@[simp] theorem present_responses : (s.present q).responses = s.responses := rfl

@[simp] theorem resetEvent_mem : s.resetEvent.block.mem = s.block.mem := rfl
@[simp] theorem resetEvent_requests : s.resetEvent.requests = s.requests := rfl
@[simp] theorem resetEvent_responses : s.resetEvent.responses = s.responses := rfl

@[simp] theorem hashStart_acc : (hashStart b).acc = Config.hashInit := rfl
@[simp] theorem hashStart_key : (hashStart b).key = b.key := rfl
@[simp] theorem hashStart_shift : (hashStart b).shift = b.shift := rfl
@[simp] theorem hashStart_ckey : (hashStart b).ckey = b.ckey := rfl
@[simp] theorem hashStart_base : (hashStart b).base = b.base := rfl
@[simp] theorem hashStart_len : (hashStart b).len = b.len := rfl
@[simp] theorem hashStart_phase : (hashStart b).phase = .hRun := rfl
@[simp] theorem hashStart_ptr : (hashStart b).ptr = b.base.toNat := rfl
@[simp] theorem hashStart_rem : (hashStart b).rem = b.len.toNat := rfl
@[simp] theorem hashStart_clen : (hashStart b).clen = b.clen := rfl
@[simp] theorem hashStart_idx : (hashStart b).idx = b.idx := rfl
@[simp] theorem hashStart_mem : (hashStart b).mem = b.mem := rfl

@[simp] theorem cryptStart_acc : (cryptStart b).acc = b.acc := rfl
@[simp] theorem cryptStart_key : (cryptStart b).key = b.key := rfl
@[simp] theorem cryptStart_shift : (cryptStart b).shift = 0 := rfl
@[simp] theorem cryptStart_ckey : (cryptStart b).ckey = b.ckey := rfl
@[simp] theorem cryptStart_base : (cryptStart b).base = b.base := rfl
@[simp] theorem cryptStart_len : (cryptStart b).len = b.len := rfl
@[simp] theorem cryptStart_phase : (cryptStart b).phase = .cChunk := rfl
@[simp] theorem cryptStart_ptr : (cryptStart b).ptr = b.base.toNat := rfl
@[simp] theorem cryptStart_rem : (cryptStart b).rem = b.len.toNat := rfl
@[simp] theorem cryptStart_clen : (cryptStart b).clen = b.clen := rfl
@[simp] theorem cryptStart_idx : (cryptStart b).idx = b.idx := rfl
@[simp] theorem cryptStart_mem : (cryptStart b).mem = b.mem := rfl

@[simp] theorem cUpdStep_acc : (cUpdStep b).acc = b.acc := rfl
@[simp] theorem cUpdStep_key : (cUpdStep b).key = nextKey b.key (nextShift b.shift) := rfl
@[simp] theorem cUpdStep_shift : (cUpdStep b).shift = nextShift b.shift := rfl
@[simp] theorem cUpdStep_ckey : (cUpdStep b).ckey = b.ckey := rfl
@[simp] theorem cUpdStep_base : (cUpdStep b).base = b.base := rfl
@[simp] theorem cUpdStep_len : (cUpdStep b).len = b.len := rfl
@[simp] theorem cUpdStep_phase : (cUpdStep b).phase = .cChunk := rfl
@[simp] theorem cUpdStep_ptr : (cUpdStep b).ptr = b.ptr + b.clen := rfl
@[simp] theorem cUpdStep_rem : (cUpdStep b).rem = b.rem - b.clen := rfl
@[simp] theorem cUpdStep_clen : (cUpdStep b).clen = b.clen := rfl
@[simp] theorem cUpdStep_idx : (cUpdStep b).idx = b.idx := rfl
@[simp] theorem cUpdStep_mem : (cUpdStep b).mem = b.mem := rfl

end Sys2Proof.Machine
end

