-- ==== Sys2Proof/Laws/Exec.lean ====
section
/-! SUPPORT. What each shared operation over the whole state can do: completing, running a command, taking a request, and the
meaning of each transaction in its accepted and its refused case. -/

namespace Sys2Proof.Machine

@[simp] theorem complete_ok (s : State) (b : Block) (v : Word) :
    s.complete (.ok (b, v)) =
      .next { s with block := b, responses := s.responses ++ [⟨.ok, v⟩] } := rfl

@[simp] theorem complete_error (s : State) (f : Fault) : s.complete (.error f) = .fault f := rfl

/-- If a completion answers a next state, it is the given block with one response `OK`. -/
theorem complete_next {s t : State} {r : Except Fault (Block × Word)} (h : s.complete r = .next t) :
    ∃ b v, r = .ok (b, v) ∧ t = { s with block := b, responses := s.responses ++ [⟨.ok, v⟩] } := by
  cases r with
  | error f => simp at h
  | ok p =>
    obtain ⟨b, v⟩ := p
    simp only [complete_ok, Host.Outcome.next.injEq] at h
    exact ⟨b, v, rfl, h.symm⟩

/-- A command whose window fits is the run of its sequencer steps. -/
theorem runCommand_of_fits {s : State} (start b : Block) (n : Nat)
    (hw : s.block.base.toNat + s.block.len.toNat ≤ Config.bufBytes) (h : runSeq n start = .ok b) :
    s.runCommand start n = .next { s with block := b, responses := s.responses ++ [⟨.ok, 0⟩] } := by
  simp [State.runCommand, windowFits, hw, h, Except.map]

/-- A command whose window does not fit is refused. -/
theorem runCommand_of_not_fits {s : State} (start : Block) (n : Nat)
    (hw : ¬ s.block.base.toNat + s.block.len.toNat ≤ Config.bufBytes) :
    s.runCommand start n = .next (s.refuse .eRange) := by
  simp [State.runCommand, windowFits, hw]

/-- If a command answers a next state, it was refused, or its sequencer ran to the new block. -/
theorem runCommand_next {s t : State} {start : Block} {n : Nat} (h : s.runCommand start n = .next t) :
    (¬ s.block.base.toNat + s.block.len.toNat ≤ Config.bufBytes ∧ t = s.refuse .eRange) ∨
    (s.block.base.toNat + s.block.len.toNat ≤ Config.bufBytes ∧ ∃ b, runSeq n start = .ok b ∧
      t = { s with block := b, responses := s.responses ++ [⟨.ok, 0⟩] }) := by
  by_cases hw : s.block.base.toNat + s.block.len.toNat ≤ Config.bufBytes
  · cases hr : runSeq n start with
    | error f => simp [State.runCommand, windowFits, hw, hr, Except.map] at h
    | ok b =>
      rw [runCommand_of_fits start b n hw hr, Host.Outcome.next.injEq] at h
      exact .inr ⟨hw, b, rfl, h.symm⟩
  · rw [runCommand_of_not_fits start n hw, Host.Outcome.next.injEq] at h
    exact .inl ⟨hw, h.symm⟩

/-- Taking a request: the head of the queue, the block untouched. -/
theorem takeRequest_cons {s : State} {q : Request} {qs : List Request} (h : s.requests = q :: qs) :
    takeRequest s = some (q, { s with requests := qs }) := by
  simp [takeRequest, h]

theorem takeRequest_nil {s : State} (h : s.requests = []) : takeRequest s = none := by
  simp [takeRequest, h]

/-! ## The register operands -/

/-- The readable indices are 0 to 4 (10_state.md R12, R19). -/
theorem readOperand_isSome (b : Block) (reg : Nat) : (readOperand b reg).isSome = decide (reg ≤ 4) := by
  match reg with
  | 0 | 1 | 2 | 3 | 4 => rfl
  | n + 5 => simp [readOperand, regOfIndex]

/-- The writable indices are 0 to 2 (10_state.md R12, R19). -/
theorem writeOperand_isSome (b : Block) (reg : Nat) (v : Word) :
    (writeOperand b reg v).isSome = decide (reg ≤ 2) := by
  match reg with
  | 0 | 1 | 2 | 3 | 4 => rfl
  | n + 5 => simp [writeOperand, regOfIndex]

/-- If a host write of a register answers a block, exactly one of `BASE`, `LEN`, `KEY` is written. -/
theorem writeOperand_cases {b b' : Block} {reg : Nat} {v : Word} (h : writeOperand b reg v = some b') :
    (reg = 0 ∧ b' = { b with base := v }) ∨ (reg = 1 ∧ b' = { b with len := v }) ∨
      (reg = 2 ∧ b' = { b with key := v }) := by
  match reg with
  | 0 | 1 | 2 | 3 | 4 => simp_all [writeOperand, regOfIndex, writeReg, eq_comm]
  | n + 5 => simp [writeOperand, regOfIndex] at h

/-! ## What each meaning can do -/

/-- If `RD` answers a next state, it read a register or was refused; the block is unchanged. -/
theorem execRd_next {reg : Nat} {s t : State} (h : execRd reg s = .next t) :
    (∃ v, readOperand s.block reg = some v ∧ t = s.respond .ok v) ∨
    (readOperand s.block reg = none ∧ t = s.refuse .eReg) := by
  cases hr : readOperand s.block reg with
  | none => simp only [execRd, hr, Host.Outcome.next.injEq] at h; exact .inr ⟨rfl, h.symm⟩
  | some v => simp only [execRd, hr, complete_ok, Host.Outcome.next.injEq] at h; exact .inl ⟨v, rfl, h.symm⟩

/-- If `WR` answers a next state, it wrote one register or was refused. -/
theorem execWr_next {reg : Nat} {v : Word} {s t : State} (h : execWr reg v s = .next t) :
    (∃ b, writeOperand s.block reg v = some b ∧
      t = { s with block := b, responses := s.responses ++ [⟨.ok, 0⟩] }) ∨
    (writeOperand s.block reg v = none ∧ t = s.refuse .eReg) := by
  cases hw : writeOperand s.block reg v with
  | none => simp only [execWr, hw, Host.Outcome.next.injEq] at h; exact .inr ⟨rfl, h.symm⟩
  | some b => simp only [execWr, hw, complete_ok, Host.Outcome.next.injEq] at h; exact .inl ⟨b, rfl, h.symm⟩

/-- `MRD` in its two cases. -/
theorem execMrd_eq (addr : Nat) (s : State) :
    execMrd addr s =
      if addr < Config.bufBytes then .next (s.respond .ok (zextByte (s.block.mem.get addr)))
      else .next (s.refuse .eAddr) := by
  by_cases h : addr < Config.bufBytes
  · simp [execMrd, addrInMemory, h, memRead_of_lt h, Except.map, State.respond]
  · simp [execMrd, addrInMemory, h]

/-- `MWR` in its two cases. -/
theorem execMwr_eq (addr : Nat) (byte : Byte) (s : State) :
    execMwr addr byte s =
      if addr < Config.bufBytes then
        .next { s with block := { s.block with mem := s.block.mem.set addr byte },
                       responses := s.responses ++ [⟨.ok, 0⟩] }
      else .next (s.refuse .eAddr) := by
  by_cases h : addr < Config.bufBytes
  · simp [execMwr, addrInMemory, h, memWrite_of_lt _ h, Except.map]
  · simp [execMwr, addrInMemory, h]

/-- One step, by what the port presents and what the decoder says. -/
theorem step_cases (s : State) :
    (s.requests = [] ∧ step s = .next s) ∨
    (∃ q qs i, s.requests = q :: qs ∧ decode q = .instr i ∧ step s = exec i { s with requests := qs }) ∨
    (∃ q qs c, s.requests = q :: qs ∧ decode q = .refused c ∧
      step s = .next (({ s with requests := qs } : State).refuse (statusOfDecode c))) := by
  cases hq : s.requests with
  | nil => exact .inl ⟨rfl, by simp [step, takeRequest_nil hq]⟩
  | cons q qs =>
    cases hd : decode q with
    | instr i => exact .inr (.inl ⟨q, qs, i, rfl, hd, by simp [step, takeRequest_cons hq, hd]⟩)
    | refused c => exact .inr (.inr ⟨q, qs, c, rfl, hd, by simp [step, takeRequest_cons hq, hd]⟩)

end Sys2Proof.Machine
end

