-- ==== Sys2Proof/Laws/PerInstr.lean ====
section
/-! SUPPORT. The per-instruction family `EncodedFields`: which fields the request word of each transaction holds
(30_encoding.md R63, R70). -/

namespace Sys2Proof.Laws.EncodedFields

/-- The operation of a transaction. -/
def opOf : Instr → Op
  | .rd _ => .rd
  | .wr _ _ => .wr
  | .mrd _ => .mrd
  | .mwr _ _ => .mwr
  | .hash => .hash
  | .crypt => .crypt

/-- The request word of a transaction holds its operation code, and zero in every field that must be zero. -/
def Statement (i : Instr) : Prop :=
  opField (encode i) = (opOf i).code ∧ reservedFieldsZero (opOf i) (encode i) = true

theorem rd (reg : Nat) : Statement (.rd reg) := by
  simp [Statement, encode, opOf, Op.code, reservedFieldsZero]

theorem wr (reg : Nat) (value : Word) : Statement (.wr reg value) := by
  simp [Statement, encode, opOf, Op.code, reservedFieldsZero]

theorem mrd (addr : Nat) : Statement (.mrd addr) := by
  simp [Statement, encode, opOf, Op.code, reservedFieldsZero]

theorem mwr (addr : Nat) (byte : Byte) : Statement (.mwr addr byte) := by
  simp [Statement, encode, opOf, Op.code, reservedFieldsZero]

theorem hash : Statement .hash := by
  simp [Statement, encode, opOf, Op.code, reservedFieldsZero]

theorem crypt : Statement .crypt := by
  simp [Statement, encode, opOf, Op.code, reservedFieldsZero]

end Sys2Proof.Laws.EncodedFields
end

