-- ==== Sys2Proof/Laws/Sequencer.lean ====
section
/-! SUPPORT. What one sequencer step can do, and how runs of steps compose. -/

namespace Sys2Proof.Machine

/-- Everything one sequencer step can do, by `PHASE` (40_hash.md R87; 41_crypt.md R113 to R115). -/
theorem seqStep_cases {b b' : Block} (h : seqStep b = .ok b') :
    (b.phase = .idle ∧ b' = b) ∨
    (b.phase = .hRun ∧ b.rem = 0 ∧ b' = { b with phase := .idle }) ∨
    (b.phase = .hRun ∧ b.rem ≠ 0 ∧ b.ptr < Config.bufBytes ∧
      b' = { b with acc := hstep b.acc (b.mem.get b.ptr), ptr := b.ptr + 1, rem := b.rem - 1 }) ∨
    (b.phase = .cChunk ∧ b.rem = 0 ∧ b' = { b with phase := .idle }) ∨
    (b.phase = .cChunk ∧ b.rem ≠ 0 ∧
      b' = { b with clen := min b.rem Config.chunkBytes, ckey := b.key, idx := 0, phase := .cByte }) ∨
    (b.phase = .cByte ∧ b.idx < b.clen ∧ b.ptr + b.idx < Config.bufBytes ∧
      b' = { b with mem := b.mem.set (b.ptr + b.idx) (b.mem.get (b.ptr + b.idx) ^^^ lowByte b.ckey),
                    ckey := shr32 b.ckey 8, idx := b.idx + 1 }) ∨
    (b.phase = .cByte ∧ b.clen ≤ b.idx ∧ b' = { b with phase := .cUpd }) ∨
    (b.phase = .cUpd ∧ b' = cUpdStep b) := by
  simp only [seqStep] at h
  split at h
  · rename_i hp
    simp only [Except.ok.injEq] at h
    simp_all
  · rename_i hp
    simp only [hRunStep] at h
    split at h
    · rename_i hr
      simp only [Except.ok.injEq] at h
      exact .inr (.inl ⟨hp, hr, h.symm⟩)
    · rename_i hr
      cases hm : memRead b b.ptr with
      | error f => rw [hm] at h; cases h
      | ok v =>
        obtain ⟨hlt, rfl⟩ := memRead_cases hm
        rw [hm] at h
        simp only [Except.map, Except.ok.injEq] at h
        exact .inr (.inr (.inl ⟨hp, hr, hlt, h.symm⟩))
  · rename_i hp
    simp only [cChunkStep, Except.ok.injEq] at h
    split at h
    · rename_i hr
      exact .inr (.inr (.inr (.inl ⟨hp, hr, h.symm⟩)))
    · rename_i hr
      exact .inr (.inr (.inr (.inr (.inl ⟨hp, hr, h.symm⟩))))
  · rename_i hp
    simp only [cByteStep] at h
    split at h
    · rename_i hi
      cases hm : memRead b (b.ptr + b.idx) with
      | error f => rw [hm] at h; cases h
      | ok v =>
        obtain ⟨hlt, rfl⟩ := memRead_cases hm
        rw [hm] at h
        simp only [Except.bind, memWrite_of_lt _ hlt, Except.map, Except.ok.injEq] at h
        exact .inr (.inr (.inr (.inr (.inr (.inl ⟨hp, hi, hlt, h.symm⟩)))))
    · rename_i hi
      simp only [Except.ok.injEq] at h
      exact .inr (.inr (.inr (.inr (.inr (.inr (.inl ⟨hp, Nat.le_of_not_lt hi, h.symm⟩))))))
  · rename_i hp
    simp only [Except.ok.injEq] at h
    exact .inr (.inr (.inr (.inr (.inr (.inr (.inr ⟨hp, h.symm⟩))))))

/-! ## Each step forward, where it is in range -/

theorem seqStep_hRun_byte {b : Block} (hp : b.phase = .hRun) (hr : b.rem ≠ 0) (ha : b.ptr < Config.bufBytes) :
    seqStep b = .ok { b with acc := hstep b.acc (b.mem.get b.ptr), ptr := b.ptr + 1, rem := b.rem - 1 } := by
  simp [seqStep, hp, hRunStep, hr, memRead_of_lt ha, Except.map]

theorem seqStep_hRun_end {b : Block} (hp : b.phase = .hRun) (hr : b.rem = 0) :
    seqStep b = .ok { b with phase := .idle } := by
  simp [seqStep, hp, hRunStep, hr]

theorem seqStep_cChunk_end {b : Block} (hp : b.phase = .cChunk) (hr : b.rem = 0) :
    seqStep b = .ok { b with phase := .idle } := by
  simp [seqStep, hp, cChunkStep, hr]

theorem seqStep_cChunk_open {b : Block} (hp : b.phase = .cChunk) (hr : b.rem ≠ 0) :
    seqStep b =
      .ok { b with clen := min b.rem Config.chunkBytes, ckey := b.key, idx := 0, phase := .cByte } := by
  simp [seqStep, hp, cChunkStep, hr]

theorem seqStep_cByte_byte {b : Block} (hp : b.phase = .cByte) (hi : b.idx < b.clen)
    (ha : b.ptr + b.idx < Config.bufBytes) :
    seqStep b =
      .ok { b with mem := b.mem.set (b.ptr + b.idx) (b.mem.get (b.ptr + b.idx) ^^^ lowByte b.ckey),
                   ckey := shr32 b.ckey 8, idx := b.idx + 1 } := by
  simp [seqStep, hp, cByteStep, hi, memRead_of_lt ha, memWrite_of_lt _ ha, Except.map, Except.bind]

theorem seqStep_cByte_end {b : Block} (hp : b.phase = .cByte) (hi : b.clen ≤ b.idx) :
    seqStep b = .ok { b with phase := .cUpd } := by
  simp [seqStep, hp, cByteStep, Nat.not_lt.mpr hi]

theorem seqStep_cUpd {b : Block} (hp : b.phase = .cUpd) : seqStep b = .ok (cUpdStep b) := by
  simp [seqStep, hp]

/-! ## Runs -/

@[simp] theorem runSeq_zero (b : Block) : runSeq 0 b = .ok b := rfl

theorem runSeq_succ_of_ok {b b' : Block} (n : Nat) (h : seqStep b = .ok b') : runSeq (n + 1) b = runSeq n b' := by
  simp [runSeq, h, Except.bind]

/-- A run of `m + n` steps is a run of `m` and then of `n`. -/
theorem runSeq_add (m n : Nat) (b : Block) : runSeq (m + n) b = (runSeq m b).bind (runSeq n) := by
  induction m generalizing b with
  | zero => simp [runSeq, Except.bind]
  | succ m ih =>
    rw [Nat.succ_add]
    cases h : seqStep b with
    | error f => simp [runSeq, h, Except.bind]
    | ok b' => rw [runSeq_succ_of_ok _ h, runSeq_succ_of_ok _ h, ih]

theorem runSeq_trans {m : Nat} {b b' : Block} (n : Nat) (h : runSeq m b = .ok b') :
    runSeq (m + n) b = runSeq n b' := by
  simp [runSeq_add, h, Except.bind]

/-- A property every step keeps holds at the end of a run: the induction over sequencer steps, once. -/
theorem runSeq_keeps {P : Block → Prop} (hkeep : ∀ b b', P b → seqStep b = .ok b' → P b') {n : Nat} {b b' : Block}
    (hP : P b) (h : runSeq n b = .ok b') : P b' := by
  induction n generalizing b with
  | zero => simp only [runSeq, Except.ok.injEq] at h; exact h ▸ hP
  | succ n ih =>
    cases hs : seqStep b with
    | error f => simp [runSeq, hs, Except.bind] at h
    | ok c => rw [runSeq_succ_of_ok _ hs] at h; exact ih (hkeep _ _ hP hs) h

end Sys2Proof.Machine
end

