-- ==== Sys2Proof/Laws/Window.lean ====
section
/-! SUPPORT. The bytes of the buffer window, and what the sequencer does over the bytes of one chunk. -/

namespace Sys2Proof.Machine

@[simp] theorem window_length (b : Block) : (window b).length = b.len.toNat := by simp [window]

/-- The byte at offset `j` of the window is the byte at address `BASE + j`. -/
theorem window_getElem? (b : Block) (j : Nat) :
    (window b)[j]? = if j < b.len.toNat then some (b.mem.get (b.base.toNat + j)) else none := by
  simp only [window, List.getElem?_map]
  split <;> simp_all

theorem shr32_shr32 (a : Word) (m n : Nat) : shr32 (shr32 a m) n = shr32 a (m + n) := by
  simp only [shr32, BitVec.shiftRight_add]

theorem keyByte_zero (k : Word) : keyByte k 0 = lowByte k := by simp [keyByte, shr32]

theorem keyByte_succ (k : Word) (i : Nat) : keyByte k (i + 1) = keyByte (shr32 k 8) i := by
  rw [keyByte, keyByte, shr32_shr32, Nat.mul_add, Nat.add_comm]

/-- The byte steps of a chunk: `d` bytes from `IDX` on meet the bytes of `CKEY`, and nothing else changes. -/
theorem runSeq_cByte (d : Nat) (b : Block) (hp : b.phase = .cByte) (hi : b.idx + d = b.clen)
    (ha : b.ptr + b.clen ≤ Config.bufBytes) :
    ∃ m : Memory,
      runSeq d b = .ok { b with mem := m, idx := b.clen, ckey := shr32 b.ckey (8 * d) } ∧
      (b.mem.wf → m.wf) ∧
      ∀ a, m.get a =
        if b.ptr + b.idx ≤ a ∧ a < b.ptr + b.clen then
          b.mem.get a ^^^ keyByte b.ckey (a - (b.ptr + b.idx))
        else b.mem.get a := by
  induction d generalizing b with
  | zero =>
    refine ⟨b.mem, ?_, id, fun a => by rw [if_neg (by omega)]⟩
    cases b
    simp_all [runSeq, shr32]
  | succ d ih =>
    rw [runSeq_succ_of_ok d (seqStep_cByte_byte hp (by omega) (by omega))]
    let m₁ := b.mem.set (b.ptr + b.idx) (b.mem.get (b.ptr + b.idx) ^^^ lowByte b.ckey)
    obtain ⟨m, h₁, h₂, h₃⟩ := ih { b with mem := m₁, ckey := shr32 b.ckey 8, idx := b.idx + 1 } hp
      (by dsimp only; omega) ha
    dsimp only at h₁ h₃
    refine ⟨m, ?_, fun hw => h₂ (wf_set _ hw (by omega)), fun a => ?_⟩
    · rw [h₁, shr32_shr32, Nat.mul_add, Nat.add_comm]
    · rw [h₃]
      simp only [m₁, get_set]
      by_cases h : a = b.ptr + b.idx
      · subst h
        rw [if_neg (by omega), if_pos rfl, if_pos (by omega), Nat.sub_self, keyByte_zero]
      · rw [if_neg h]
        by_cases hr : b.ptr + b.idx ≤ a ∧ a < b.ptr + b.clen
        · rw [if_pos (by omega), if_pos hr, ← keyByte_succ]
          congr 2; omega
        · rw [if_neg (by omega), if_neg hr]

/-- One chunk of `CRYPT`, from one `C_CHUNK` to the next (41_crypt.md R113 to R115). -/
theorem runSeq_chunk (b : Block) (hp : b.phase = .cChunk) (hr : b.rem ≠ 0)
    (ha : b.ptr + b.rem ≤ Config.bufBytes) :
    ∃ m : Memory,
      runSeq (min b.rem 4 + 3) b = .ok { b with
        mem := m, ptr := b.ptr + min b.rem 4, rem := b.rem - min b.rem 4, clen := min b.rem 4, idx := min b.rem 4,
        ckey := shr32 b.key (8 * min b.rem 4), shift := nextShift b.shift,
        key := nextKey b.key (nextShift b.shift) } ∧
      (b.mem.wf → m.wf) ∧
      ∀ a, m.get a =
        if b.ptr ≤ a ∧ a < b.ptr + min b.rem 4 then b.mem.get a ^^^ keyByte b.key (a - b.ptr) else b.mem.get a := by
  obtain ⟨m, h₁, h₂, h₃⟩ := runSeq_cByte (min b.rem 4)
    { b with clen := min b.rem Config.chunkBytes, ckey := b.key, idx := 0, phase := .cByte } rfl
    (by simp [Config.chunkBytes]) (by simp only [Config.chunkBytes]; omega)
  refine ⟨m, ?_, h₂, h₃⟩
  rw [show min b.rem 4 + 3 = min b.rem 4 + (1 + 1) + 1 by omega,
    runSeq_succ_of_ok _ (seqStep_cChunk_open hp hr), runSeq_trans _ h₁,
    runSeq_succ_of_ok _ (seqStep_cByte_end rfl (le_refl _)), runSeq_succ_of_ok _ (seqStep_cUpd rfl)]
  simp [cUpdStep, Config.chunkBytes, hp]

end Sys2Proof.Machine
end

