-- ==== Sys2Proof/Machine/Driver.lean ====
section
/-! DEFINITION. The verification driver, which is the host (42_host_access.md section 4). It is outside the block and outside
the spec's scope (00_scope.md R3); its transcribed contract is given here over `step` so that nothing of it is lost. Its two
open parameters are free values (assumption log 10). -/

namespace Sys2Proof.Machine

/-- The three status lines (42_host_access.md R150). -/
inductive StatusLine where
  | lengthMismatch | incorrect | correct
deriving DecidableEq, Repr

/-- The literal of a status line (42_host_access.md R150). -/
def StatusLine.text : StatusLine → String
  | .lengthMismatch => "length mismatch."
  | .incorrect => "incorrect."
  | .correct => "correct!"

/-- The prompt, always written first (42_host_access.md R144). -/
def promptText : String := "please input your flag:"

/-- "0 on `correct!`, 1 otherwise" (42_host_access.md R151). -/
def StatusLine.exitStatus : StatusLine → Nat
  | .correct => 0
  | .lengthMismatch => 1
  | .incorrect => 1

/-- The one attempt of a run: what the driver wrote, its exit status, and the system afterwards (42_host_access.md R152). -/
structure Attempt where
  status : StatusLine
  system : State
deriving DecidableEq, Repr

/-- The literals written in a run: the prompt, then exactly one status line (42_host_access.md R144, R150). -/
def Attempt.written (a : Attempt) : List String := [promptText, a.status.text]

/-- The kept part of the input line: its first 79 characters (42_host_access.md R145). -/
def keptLine (line : List Byte) : List Byte := line.take (Config.lineCap - 1)

/-- The line without its trailing newline characters (42_host_access.md R146). -/
def stripNewlines (line : List Byte) : List Byte := (line.reverse.dropWhile Config.isNewline).reverse

/-- The driver on one input line (42_host_access.md R144 to R151): on a length mismatch no transaction is issued; otherwise the
pipeline of R134 with the candidate at address 0, then the comparison with `REF`. None only where the system stops. -/
def driver (line : List Byte) (s : State) : Option Attempt :=
  let candidate := stripNewlines (keptLine line)
  if candidate.length = Config.refLen then
    (runProgram (pipelineProgram 0 candidate) ⟨[], s⟩).map fun h =>
      if collected Config.refLen h.system = Config.ref.toList then ⟨.correct, h.system⟩
      else ⟨.incorrect, h.system⟩
  else some ⟨.lengthMismatch, s⟩

end Sys2Proof.Machine
end

