-- ==== Sys2Proof/Tests/Slice0.lean ====
section
/-! SUPPORT. Tests: the checks of WellFormed, the decoding of words written out from 30_encoding.md, the vectors of
95_test_vectors.md on single transactions, and a witness for every statement with hypotheses. -/

namespace Sys2Proof.Tests

open Sys2Proof.Machine Sys2Proof.Safety

/-! ## Helpers -/

/-- The reset state with the given block. -/
def withBlock (b : Block) : State := { State.reset with block := b }

/-- The state in which the host presents one request word to the given block. -/
def asking (b : Block) (q : Request) : State := { State.reset with block := b, requests := [q] }

/-- The block of a next state. -/
def blockOf (o : Host.Outcome State Fault Refusal) : Option Block :=
  match o with
  | .next t => some t.block
  | .fault _ => none
  | .refused _ => none

/-- The response words of a next state. -/
def wordsOf (o : Host.Outcome State Fault Refusal) : List ResponseWord :=
  match o with
  | .next t => t.responses.map Response.word
  | .fault _ => []
  | .refused _ => []

/-- The block of program P2 before its `hash` (95_test_vectors.md section 5): "flag" and a brace at address 3. -/
def flagBlock : Block :=
  { Block.reset with base := 3, len := 5, mem := [(3, 0x66), (4, 0x6C), (5, 0x61), (6, 0x67), (7, 0x7B)] }

/-- The block of program P2 before its `crypt`. -/
def keyedBlock : Block := { flagBlock with key := 0x0F71A6DA, acc := 0x0F71A6DA }

/-- A window that ends exactly at the top of the memory (VQ14), and one that passes it by one byte (VQ13). -/
def topBlock : Block := { Block.reset with base := 78, len := 2 }
def overBlock : Block := { Block.reset with base := 78, len := 3 }

/-! ## WellFormed: an ill-formed term for each check -/

theorem test_wf_rd_refuses_index_16 : ¬ (Instr.rd 16).WellFormed := by decide
theorem test_wf_wr_refuses_index_16 : ¬ (Instr.wr 16 0).WellFormed := by decide
theorem test_wf_mrd_refuses_address_2_32 : ¬ (Instr.mrd 4294967296).WellFormed := by decide
theorem test_wf_mwr_refuses_address_2_32 : ¬ (Instr.mwr 4294967296 0).WellFormed := by decide
theorem test_wf_admits_the_largest_operands :
    (Instr.rd 15).WellFormed ∧ (Instr.wr 15 0xFFFFFFFF).WellFormed ∧ (Instr.mrd 4294967295).WellFormed ∧
      (Instr.mwr 4294967295 0xFF).WellFormed ∧ Instr.hash.WellFormed ∧ Instr.crypt.WellFormed := by decide

/-! ## Decoding: words written out from the fields of 30_encoding.md R61 and R63 -/

theorem test_decode_rd :
    decode 0b0001001100000000000000000000000000000000000000000000000000000000 = .instr (.rd 3) := by decide
theorem test_decode_wr :
    decode 0b0010001000000000000000000000000000010010001101000101011001111000 =
      .instr (.wr 2 0x12345678) := by decide
theorem test_decode_mrd :
    decode 0b0011000000000000000000000000000000000000000000000000000001001111 = .instr (.mrd 79) := by decide
theorem test_decode_mwr :
    decode 0b0100000000000000000000000110011000000000000000000000000000000011 =
      .instr (.mwr 3 0x66) := by decide
theorem test_decode_hash :
    decode 0b1000000000000000000000000000000000000000000000000000000000000000 = .instr .hash := by decide
theorem test_decode_crypt :
    decode 0b1001000000000000000000000000000000000000000000000000000000000000 = .instr .crypt := by decide

/-- The request words of program P2 and of 42_host_access.md. -/
theorem test_encode_words :
    encode (.mwr 4 0x6C) = 0x4000006C00000004 ∧ encode (.wr 1 5) = 0x2100000000000005 ∧
      encode (.rd 4) = 0x1400000000000000 ∧ encode (.mrd 8) = 0x3000000000000008 ∧
      encode .hash = 0x8000000000000000 ∧ encode .crypt = 0x9000000000000000 := by decide

theorem test_decodeTableWord :
    decodeTableWord 64 0x4000006100000000 = some (.mwr 0 0x61) ∧ decodeTableWord 64 0 = none := by decide

/-- VQ1 to VQ6: the decoder's refusals and their order. -/
theorem test_decode_refusals :
    decode 0x0000000000000000 = .refused .eOp ∧ decode 0x5000000000000000 = .refused .eOp ∧
      decode 0xF0FFFF0000000000 = .refused .eOp ∧ decode 0x8000000000000001 = .refused .eField ∧
      decode 0x1200010000000000 = .refused .eField ∧ decode 0x1900000000000001 = .refused .eField := by decide

/-! ## The functions (95_test_vectors.md sections 2 to 4) -/

theorem test_rotl32 :
    rotl32 0x12345678 0 = 0x12345678 ∧ rotl32 0x12345678 5 = 0x468ACF02 ∧ rotl32 0x12345678 31 = 0x091A2B3C := by decide
theorem test_nextKey :
    nextKey 0x12345678 5 = 0x54BE995A ∧ nextKey 0x00000001 31 = 0x80000001 ∧ nextKey 0x12345679 0 = 0 := by decide
/-- VH4, VH11, VH12. -/
theorem test_seedHash :
    seedHash [0xFF] = 177828 ∧ seedHash [0, 0, 0, 0] = 0x7C5D0F85 ∧
      seedHash [0x61, 0x62, 0x63, 0x64, 0x65, 0x66] = 0xF148CB7A := by decide
/-- VX8. -/
theorem test_crypt_three_chunks :
    crypt [0x11, 0x22, 0x33, 0x44, 0x55, 0x66, 0x77, 0x88, 0x99] 0xDEADBEEF =
      ([0xFE, 0x9C, 0x9E, 0x9A, 0x41, 0x05, 0x6D, 0x83, 0xA1], 0x790A8673, 15) := by decide
/-- `K_32` of the even and the odd course (95_test_vectors.md section 2). -/
theorem test_schedule_collapse :
    scheduleKey 0x12345678 31 = 0x34F9938A ∧ scheduleKey 0x12345678 32 = 1 ∧ scheduleKey 0x12345679 32 = 0 := by decide

/-! ## Single transactions -/

/-- The text and the bytes of 95_test_vectors.md VH13. -/
theorem test_textBytes_of_VH13 : textBytes "hello" = [0x68, 0x65, 0x6C, 0x6C, 0x6F] := by decide

/-- P1: the write of the first byte, request word `0x4000006100000000`. -/
theorem test_mwr_step : blockOf (step (asking Block.reset 0x4000006100000000)) =
    some { Block.reset with mem := [(0, 0x61)] } := by decide
/-- P2: `mrd 7` before the transform. -/
theorem test_mrd_step : wordsOf (step (asking flagBlock 0x3000000000000007)) = [0x00000007B] := by decide
/-- VQ12 at the last byte of the memory: the response is `OK` whatever the byte. -/
theorem test_mrd_last_byte : ∃ t, exec (.mrd 79) State.reset = .next t := ⟨_, rfl⟩
/-- VQ10, VQ11: address 80. -/
theorem test_address_80_refused :
    wordsOf (step (asking flagBlock 0x3000000000000050)) = [0x400000000] ∧
      wordsOf (step (asking flagBlock 0x4000000100000050)) = [0x400000000] := by decide
/-- P2: `rd ACC` after the hash; VQ7. -/
theorem test_rd_step :
    wordsOf (step (asking keyedBlock 0x1300000000000000)) = [0x00F71A6DA] ∧
      wordsOf (step (asking keyedBlock 0x1500000000000000)) = [0x300000000] := by decide
/-- P2: `rd SHIFT` with its bits 31:5 zero. -/
theorem test_rd_shift : wordsOf (step (asking { keyedBlock with shift := 10 } 0x1400000000000000)) = [0x00000000A] := by
  decide
/-- P2: `wr KEY`. -/
theorem test_wr_step : blockOf (step (asking flagBlock 0x220000000F71A6DA)) =
    some { flagBlock with key := 0x0F71A6DA } := by decide
/-- VQ8, VQ9: the read-only registers. -/
theorem test_wr_read_only :
    wordsOf (step (asking flagBlock 0x2300000000000001)) = [0x300000000] ∧
      wordsOf (step (asking flagBlock 0x2400000000000001)) = [0x300000000] := by decide
/-- P2 (VH14), the hidden leftovers by 10_state.md R22. -/
theorem test_hash_step : blockOf (step (asking flagBlock 0x8000000000000000)) =
    some { flagBlock with acc := 0x0F71A6DA, ptr := 8, rem := 0 } := by decide
/-- VQ13 to VQ17: the range check. -/
theorem test_hash_range :
    wordsOf (exec .hash (withBlock overBlock)) = [0x500000000] ∧
      wordsOf (exec .hash (withBlock topBlock)) = [0x000000000] ∧
      wordsOf (exec .hash (withBlock { Block.reset with base := 0xFFFFFFFF, len := 0xFFFFFFFF })) = [0x500000000] ∧
      wordsOf (exec .hash (withBlock { Block.reset with base := 80 })) = [0x000000000] ∧
      wordsOf (exec .hash (withBlock { Block.reset with base := 81 })) = [0x500000000] := by decide
/-- P2 (VX10): the transform at an odd base; `CKEY` by 10_state.md R22 is `K_1 = 0xE1457DBB` shifted by one byte. -/
theorem test_crypt_step : blockOf (step (asking keyedBlock 0x9000000000000000)) =
    some { keyedBlock with
      key := 0xF4B3923E, shift := 10, mem := [(3, 0xBC), (4, 0xCA), (5, 0x10), (6, 0x68), (7, 0xC0)],
      ptr := 8, rem := 0, clen := 1, idx := 1, ckey := 0x00E1457D } := by decide
/-- 41_crypt.md R111, corner case `LEN = 0`: `SHIFT` is cleared, `KEY` kept. -/
theorem test_crypt_empty :
    (blockOf (exec .crypt (withBlock { Block.reset with key := 7, shift := 9 }))).map (fun b => (b.key, b.shift)) =
      some (7, 0) := by decide
/-- 20_memory.md R56 on a window of five bytes: the first accesses of `CRYPT`. -/
theorem test_crypt_history :
    (execEvents .crypt keyedBlock).take 3 = [.read 3, .write 3 0xBC, .read 4] := by decide
theorem test_withFetchWord :
    wordsOf (step (State.reset.withFetchWord 64 0x1200000000000000)) = [0x000000000] := by decide
/-- The reset event clears the registers (70_reset_and_hazards.md R190); that it keeps the memory is the model's (log 9). -/
theorem test_resetEvent : (withBlock keyedBlock).resetEvent.block = { Block.reset with mem := keyedBlock.mem } := by
  decide
/-- P2, first line, through the host's assembler; and a value that fits no field. -/
theorem test_fill_line :
    ((fill 3 [0x66]).map fun l => (lineInstr [] l).map encode) = [some 0x4000006600000003] ∧
      lineInstr [] (.mwr (.lit 0) (.lit 256)) = none ∧ lineInstr [(0, 5)] (.wr 2 (.var 0)) = some (.wr 2 5) := by decide
/-- 42_host_access.md R147: an empty line is a length mismatch. -/
theorem test_driver_empty_line : (driver [] State.reset).map Attempt.status = some .lengthMismatch := by decide

/-! ## Witnesses: for each statement with hypotheses, operands and states that meet them, at the bounds -/

theorem witness_DecodeOfEncodeIsTheInstruction : (Instr.mwr 4294967295 0xFF).WellFormed ∧ (Instr.rd 15).WellFormed := by
  decide
theorem witness_AcceptedWordIsTheEncodingOfItsInstruction : decode 0x1F00000000000000 = .instr (.rd 15) := by decide
theorem witness_OpcodeTableRowsAreDisjoint :
    ∃ r ∈ opcodeTable, r.selects 0x2FFFFFFFFFFFFFFF = true ∨ r.selects 0x2F000000FFFFFFFF = true := by decide
theorem witness_StepPerformsTheDecodedRequest :
    (asking Block.reset 0x8000000000000000).requests = [0x8000000000000000] ∧
      decode 0x8000000000000000 = .instr .hash ∧ decode 0x7FFFFFFFFFFFFFFF = .refused .eOp ∧
      decode 0x4F00000000000000 = .refused .eField := by decide
theorem witness_StepWithoutRequestKeepsTheState : State.reset.requests = [] := by decide
theorem witness_EachRequestGetsOneResponseOfTheStatedForm :
    (asking Block.reset 0x3000000000000000).requests = [0x3000000000000000] ∧
      decode 0x3000000000000000 = .instr (.mrd 0) ∧ decode 0x1400000000000000 = .instr (.rd 4) ∧
      decode 0x9000000000000000 = .instr .crypt := by decide
theorem witness_MrdCompletesWithTheByte : 79 < Config.bufBytes ∧ 0 < Config.bufBytes := by decide
theorem witness_MwrCompletesAndWritesOneByte : 79 < Config.bufBytes := by decide
theorem witness_RegisterAccessIsRefusedByIndex :
    wordsOf (exec (.rd 5) State.reset) = [0x300000000] ∧ wordsOf (exec (.wr 3 0) State.reset) = [0x300000000] := by
  decide
theorem witness_AddressBeyondTheMemoryIsRefused : Config.bufBytes ≤ 80 := by decide
theorem witness_WrittenValuesAreReadBack :
    (∃ t, exec (.mwr 79 0xA5) State.reset = .next t) ∧ ∃ t, exec (.wr 2 0xFFFFFFFF) State.reset = .next t :=
  ⟨⟨_, rfl⟩, ⟨_, rfl⟩⟩
theorem witness_ReservedOperationCodesAreRefused :
    (asking Block.reset 0xFFFFFFFFFFFFFFFF).requests = [0xFFFFFFFFFFFFFFFF] ∧
      opField 0xFFFFFFFFFFFFFFFF = 0xF ∧ (asking Block.reset 0).requests = [0] := by decide
theorem witness_NonzeroReservedFieldsAreRefused :
    (opField 0x1000000000000001 = 0x1 ∧ dataField 0x1000000000000001 ≠ 0) ∧
      (opField 0x2000000100000000 = 0x2 ∧ byteField 0x2000000100000000 ≠ 0) ∧
      (opField 0x3100000000000000 = 0x3 ∧ regField 0x3100000000000000 ≠ 0) ∧
      (opField 0x4080000000000000 = 0x4 ∧ rsvField 0x4080000000000000 ≠ 0) ∧
      (opField 0x9000000080000000 = 0x9 ∧ dataField 0x9000000080000000 ≠ 0) := by decide
theorem witness_WindowBeyondTheMemoryIsRefused :
    Config.bufBytes < overBlock.base.toNat + overBlock.len.toNat ∧
      topBlock.base.toNat + topBlock.len.toNat ≤ Config.bufBytes ∧
      wordsOf (exec .crypt (withBlock overBlock)) = [0x500000000] ∧ 1 < topBlock.len.toNat := by decide
theorem witness_ChecksAreMadeInTheStatedOrder :
    Op.ofCode (opField 0x5000010000000000) = none ∧ Op.ofCode (opField 0x1900000000000001) = some .rd ∧
      reservedFieldsZero .rd 0x1900000000000001 = false ∧ reservedFieldsZero .rd 0x1500000000000000 = true ∧
      instrOf .rd 0x1500000000000000 = .rd 5 ∧ instrOf .rd 0x1400000000000000 = .rd 4 := by decide
theorem witness_RefusedTransactionChangesNothing :
    ∃ t, step (asking overBlock 0x8000000000000000) = .next t ∧ t.responses = [⟨.eRange, 0⟩] ∧ Status.eRange ≠ .ok :=
  ⟨_, rfl, rfl, by decide⟩
theorem witness_AcceptedTransactionCompletesWithOk :
    Accepts topBlock .hash ∧ Accepts topBlock (.rd 4) ∧ ¬ Accepts overBlock .crypt :=
  ⟨by show 78 + 2 ≤ 80; decide, by show 4 ≤ 4; decide, by show ¬ (78 + 3 ≤ 80); decide⟩
theorem witness_HashCompletesWithTheSeedOfTheWindow :
    (withBlock topBlock).block.base.toNat + (withBlock topBlock).block.len.toNat ≤ Config.bufBytes := by decide
theorem witness_HashSequencerRefinesHash :
    flagBlock.base.toNat + flagBlock.len.toNat ≤ Config.bufBytes ∧ 5 ≤ flagBlock.len.toNat := by decide
theorem witness_ShiftSequence_of_63_bytes : (List.replicate 63 (0x41 : Byte)).length = 63 := by decide
theorem witness_KeyCollapsesAtShiftZero : scheduleKey 0 32 = scheduleKey 0x12345678 32 ∨
    scheduleKey 1 32 = scheduleKey 0x12345678 32 := by decide
theorem witness_EmptyBufferIsUntouched :
    ({ Block.reset with base := 80 } : Block).len = 0 ∧
      ({ Block.reset with base := 80 } : Block).base.toNat ≤ Config.bufBytes := by decide
theorem witness_CryptXorsTheKeystreamAndKeepsPrefixes : 1 ≤ ([0x11, 0x22] : List Byte).length := by decide
theorem witness_CryptCompletesWithTheWindowTransformed :
    (withBlock keyedBlock).block.base.toNat + (withBlock keyedBlock).block.len.toNat ≤ Config.bufBytes := by decide
theorem witness_CryptLeavesTheStatedHiddenValues :
    topBlock.base.toNat + topBlock.len.toNat ≤ Config.bufBytes ∧ 1 ≤ topBlock.len.toNat ∧
      ∃ t, exec .crypt (withBlock topBlock) = .next t := ⟨by decide, by decide, _, rfl⟩
theorem witness_CryptSequencerRefinesCrypt :
    keyedBlock.base.toNat + keyedBlock.len.toNat ≤ Config.bufBytes ∧ 2 ≤ chunkCount keyedBlock.len.toNat ∧
      ∃ c, runSeq 11 (cryptStart keyedBlock) = .ok c := ⟨by decide, by decide, _, rfl⟩
theorem witness_AccessesAreMadeInTheStatedOrder :
    79 < Config.bufBytes ∧ topBlock.base.toNat + topBlock.len.toNat ≤ Config.bufBytes := by decide
theorem witness_EachElementIsWrittenOnlyByItsWriters : ∃ t, exec (.wr 1 5) State.reset = .next t ∧
    (Instr.wr 1 5 ≠ .hash) ∧ ∀ v, Instr.wr 1 5 ≠ .wr 2 v := ⟨_, rfl, by decide, by simp⟩
theorem witness_CommandsStayInsideTheWindow :
    (∃ t, exec .crypt (withBlock keyedBlock) = .next t) ∧
      window { keyedBlock with mem := keyedBlock.mem ++ [(9, 1)] } = window keyedBlock ∧
      ∃ t, exec .crypt (withBlock { keyedBlock with mem := keyedBlock.mem ++ [(9, 1)] }) = .next t :=
  ⟨⟨_, rfl⟩, by decide, ⟨_, rfl⟩⟩
theorem witness_WindowPositionDoesNotMatter :
    window keyedBlock =
      window { keyedBlock with
        base := 75, mem := [(75, 0x66), (76, 0x6C), (77, 0x61), (78, 0x67), (79, 0x7B)] } := by decide
theorem witness_HiddenLeftoversAreNeverObserved :
    SameToHost keyedBlock { keyedBlock with ckey := 1, ptr := 2, rem := 3, clen := 4, idx := 4 } ∧
      ∃ t, step (asking keyedBlock 0x9000000000000000) = .next t :=
  ⟨⟨rfl, rfl, rfl, rfl, rfl, rfl, rfl⟩, _, rfl⟩
theorem witness_RepeatingATransaction :
    ∃ t u, exec (.mwr 79 1) State.reset = .next t ∧ exec (.mwr 79 1) t = .next u ∧ Instr.mwr 79 1 ≠ .crypt :=
  ⟨_, _, rfl, rfl, by decide⟩
theorem witness_SecondCryptRestoresWithTheKeyReloaded :
    keyedBlock.base.toNat + keyedBlock.len.toNat ≤ Config.bufBytes ∧
      ∃ t, exec .crypt (withBlock keyedBlock) = .next t := ⟨by decide, _, rfl⟩
theorem witness_PipelineTransformsUnderItsOwnSeed :
    flagBlock.base.toNat + flagBlock.len.toNat ≤ Config.bufBytes := by decide
theorem witness_EveryStepKeepsTheBlockInvariant :
    Inv keyedBlock ∧ ∃ t, step (asking keyedBlock 0x9000000000000000) = .next t :=
  ⟨⟨by decide, by decide, by decide, by decide, by decide, by decide⟩, _, rfl⟩

end Sys2Proof.Tests
end

section
/-! PROOFS. The reset event (70_reset_and_hazards.md section 1). -/

namespace Sys2Proof.Machine

/-- The reset value of `ACC` (10_state.md R29), after the reset event. -/
@[simp] theorem resetEvent_acc (s : State) : s.resetEvent.block.acc = 0 := rfl

/-- `HASH`'s initial value 5381 is told apart from the reset value of `ACC` (70_reset_and_hazards.md R191). -/
theorem zero_ne_hashInit : (0 : Word) ≠ Config.hashInit := by decide

/-- Settles O50: the reset event touches the registers only, and `ACC` gets the reset value, not `HASH`'s initial one. -/
theorem resetEventPerformsNothing : Obligations.ResetEventPerformsNothing := by
  intro s
  have hacc : s.resetEvent.block.acc ≠ Config.hashInit := by
    rw [resetEvent_acc]
    exact zero_ne_hashInit
  have hmem (a : Nat) : s.resetEvent.block.mem.get a = s.block.mem.get a := by
    rw [resetEvent_mem]
  exact ⟨resetEvent_acc s, hacc, hmem, resetEvent_requests s, resetEvent_responses s⟩

end Sys2Proof.Machine
end

section
/-! PROOFS. Facts the histories and the repetitions share: a run of bytes of the memory (20_memory.md R42), one chunk of the
transform, and the block that `HASH` leaves (40_hash.md R85). -/

namespace Sys2Proof.Machine

/-! ## A run of bytes of the memory -/

/-- The `n` bytes of the memory from address `a` upward: what `window` is for the whole window, for any part of it. -/
def bytesFrom (m : Memory) (a n : Nat) : List Byte := (List.range n).map fun j => m.get (a + j)

theorem window_eq_bytesFrom (b : Block) : window b = bytesFrom b.mem b.base.toNat b.len.toNat := rfl

@[simp] theorem bytesFrom_zero (m : Memory) (a : Nat) : bytesFrom m a 0 = [] := rfl

@[simp] theorem bytesFrom_length (m : Memory) (a n : Nat) : (bytesFrom m a n).length = n := by simp [bytesFrom]

theorem bytesFrom_succ (m : Memory) (a n : Nat) : bytesFrom m a (n + 1) = m.get a :: bytesFrom m (a + 1) n := by
  simp [bytesFrom, List.range_succ_eq_map, Function.comp_def, Nat.add_assoc, Nat.add_comm 1]

/-- Memories that read alike over the addresses of the run hold the same bytes there. -/
theorem bytesFrom_congr {m m' : Memory} {a n : Nat} (h : ∀ x, a ≤ x → m'.get x = m.get x) :
    bytesFrom m' a n = bytesFrom m a n :=
  List.map_congr_left fun _ _ => h _ (Nat.le_add_right _ _)

theorem bytesFrom_take (m : Memory) (a n c : Nat) : (bytesFrom m a n).take c = bytesFrom m a (min n c) := by
  rw [bytesFrom, ← List.map_take, List.take_range, Nat.min_comm, bytesFrom]

theorem bytesFrom_drop (m : Memory) (a n c : Nat) :
    (bytesFrom m a n).drop c = bytesFrom m (a + min n c) (n - min n c) := by
  apply List.ext_getElem
  · simp only [List.length_drop, bytesFrom_length]
    omega
  · intro i hi _
    rw [List.length_drop, bytesFrom_length] at hi
    simp [bytesFrom, Nat.add_assoc, Nat.min_eq_right (show c ≤ n by omega)]

/-! ## The transform's chunks (41_crypt.md R105, R106) -/

@[simp] theorem xchunk_nil (k : Word) : xchunk [] k = [] := rfl

/-- The first byte of a chunk meets the low byte of the key, the others the key shifted by one byte (41_crypt.md R114). -/
theorem xchunk_cons (c : Byte) (cs : List Byte) (k : Word) :
    xchunk (c :: cs) k = (c ^^^ lowByte k) :: xchunk cs (shr32 k 8) := by
  simp [xchunk, List.mapIdx_cons, keyByte_zero, keyByte_succ]

/-- The transform keeps the length of the buffer. -/
@[simp] theorem cloop_length (B : List Byte) (k : Word) (s : ShiftAmt) : (cloop B k s).1.length = B.length := by
  induction hn : B.length using Nat.strong_induction_on generalizing B k s with
  | _ n ih =>
    by_cases hB : B = []
    · simp [hB, ← hn]
    · have hpos := List.length_pos_iff.mpr hB
      rw [cloop_step B k s hB, List.length_append, xchunk_length, List.length_take,
        ih (B.drop 4).length (by rw [List.length_drop]; omega) _ _ _ rfl, List.length_drop]
      omega

/-! ## The end of `HASH` -/

/-- The closing run of `HASH`: from any `H_RUN` state the bytes still to come are folded into `ACC`. -/
theorem runSeq_hRun (n : Nat) (b : Block) (hp : b.phase = .hRun) (hr : b.rem = n)
    (ha : b.ptr + n ≤ Config.bufBytes) :
    runSeq (n + 1) b =
      .ok { b with acc := hfold b.acc (bytesFrom b.mem b.ptr n), ptr := b.ptr + n, rem := 0, phase := .idle } := by
  induction n generalizing b with
  | zero =>
    rw [runSeq_succ_of_ok 0 (seqStep_hRun_end hp hr)]
    simp [hr]
  | succ n ih =>
    rw [runSeq_succ_of_ok _ (seqStep_hRun_byte hp (by omega) (by omega)), ih]
    · simp [bytesFrom_succ, Nat.add_assoc, Nat.add_comm 1]
    · exact hp
    · dsimp only; omega
    · dsimp only; omega

/-- The block an accepted `HASH` leaves (40_hash.md R85, 10_state.md R22). -/
def hashed (b : Block) : Block :=
  { b with acc := seedHash (window b), ptr := b.base.toNat + b.len.toNat, rem := 0, phase := .idle }

theorem runSeq_hashStart {b : Block} (h : b.base.toNat + b.len.toNat ≤ Config.bufBytes) :
    runSeq (hashSteps b.len.toNat) (hashStart b) = .ok (hashed b) := by
  rw [hashed, seedHash, window_eq_bytesFrom]
  exact runSeq_hRun b.len.toNat (hashStart b) rfl rfl h

/-- If `HASH` answers a next state, it was refused, or the block is the hashed one. -/
theorem exec_hash_next {s t : State} (h : exec .hash s = .next t) :
    (¬ s.block.base.toNat + s.block.len.toNat ≤ Config.bufBytes ∧ t.block = s.block) ∨
    (s.block.base.toNat + s.block.len.toNat ≤ Config.bufBytes ∧ t.block = hashed s.block) := by
  rcases runCommand_next h with ⟨hw, rfl⟩ | ⟨hw, b, hrun, rfl⟩
  · exact .inl ⟨hw, rfl⟩
  · rw [runSeq_hashStart hw, Except.ok.injEq] at hrun
    exact .inr ⟨hw, hrun.symm⟩

end Sys2Proof.Machine
end

section
/-! PROOFS. The history of memory accesses (20_memory.md R42, R56): the accesses of one sequencer step, of a run, of a
chunk, and of a whole command. -/

namespace Sys2Proof.Machine

/-! ## The accesses of one step, and how runs compose -/

theorem seqEvents_hRun_byte {b : Block} (hp : b.phase = .hRun) (hr : b.rem ≠ 0) : seqEvents b = [.read b.ptr] := by
  simp [seqEvents, hp, hr]

theorem seqEvents_hRun_end {b : Block} (hp : b.phase = .hRun) (hr : b.rem = 0) : seqEvents b = [] := by
  simp [seqEvents, hp, hr]

theorem seqEvents_cChunk {b : Block} (hp : b.phase = .cChunk) : seqEvents b = [] := by
  simp [seqEvents, hp]

theorem seqEvents_cByte_byte {b : Block} (hp : b.phase = .cByte) (hi : b.idx < b.clen) :
    seqEvents b =
      [.read (b.ptr + b.idx), .write (b.ptr + b.idx) (b.mem.get (b.ptr + b.idx) ^^^ lowByte b.ckey)] := by
  simp [seqEvents, hp, hi]

theorem seqEvents_cByte_end {b : Block} (hp : b.phase = .cByte) (hi : b.clen ≤ b.idx) : seqEvents b = [] := by
  simp [seqEvents, hp, Nat.not_lt.mpr hi]

theorem seqEvents_cUpd {b : Block} (hp : b.phase = .cUpd) : seqEvents b = [] := by
  simp [seqEvents, hp]

@[simp] theorem runEvents_zero (b : Block) : runEvents 0 b = [] := rfl

theorem runEvents_succ_of_ok {b b' : Block} (n : Nat) (h : seqStep b = .ok b') :
    runEvents (n + 1) b = seqEvents b ++ runEvents n b' := by
  simp [runEvents, h]

/-- The accesses of a run of `m + n` steps are those of the first `m` and then those of the other `n`. -/
theorem runEvents_trans {m : Nat} {b b' : Block} (n : Nat) (h : runSeq m b = .ok b') :
    runEvents (m + n) b = runEvents m b ++ runEvents n b' := by
  induction m generalizing b with
  | zero =>
    rw [runSeq_zero, Except.ok.injEq] at h
    simp [h]
  | succ m ih =>
    cases hs : seqStep b with
    | error f => simp [runSeq, hs, Except.bind] at h
    | ok c =>
      rw [runSeq_succ_of_ok _ hs] at h
      rw [Nat.succ_add, runEvents_succ_of_ok _ hs, runEvents_succ_of_ok _ hs, ih h, List.append_assoc]

/-! ## `HASH` -/

/-- The bytes still to come are read once each, in ascending order. -/
theorem runEvents_hRun (n : Nat) (b : Block) (hp : b.phase = .hRun) (hr : b.rem = n)
    (ha : b.ptr + n ≤ Config.bufBytes) :
    runEvents (n + 1) b = (List.range n).map fun j => .read (b.ptr + j) := by
  induction n generalizing b with
  | zero => rw [runEvents_succ_of_ok 0 (seqStep_hRun_end hp hr), seqEvents_hRun_end hp hr]; rfl
  | succ n ih =>
    rw [runEvents_succ_of_ok _ (seqStep_hRun_byte hp (by omega) (by omega)), seqEvents_hRun_byte hp (by omega),
      ih]
    · simp [List.range_succ_eq_map, Function.comp_def, Nat.add_assoc, Nat.add_comm 1]
    · exact hp
    · dsimp only; omega
    · dsimp only; omega

/-! ## `CRYPT` -/

/-- The accesses that replace the bytes from address `a` upward by new ones: each read and then written. -/
def rewriteEvents : Nat → List Byte → List MemEvent
  | _, [] => []
  | a, v :: vs => .read a :: .write a v :: rewriteEvents (a + 1) vs

@[simp] theorem rewriteEvents_nil (a : Nat) : rewriteEvents a [] = [] := rfl

@[simp] theorem rewriteEvents_cons (a : Nat) (v : Byte) (vs : List Byte) :
    rewriteEvents a (v :: vs) = [.read a, .write a v] ++ rewriteEvents (a + 1) vs := rfl

theorem rewriteEvents_append (a : Nat) (vs ws : List Byte) :
    rewriteEvents a (vs ++ ws) = rewriteEvents a vs ++ rewriteEvents (a + vs.length) ws := by
  induction vs generalizing a with
  | nil => simp
  | cons v vs ih => simp [ih, Nat.add_assoc, Nat.add_comm 1]

/-- The same accesses, offset by offset, as 20_memory.md R56 writes them. -/
theorem rewriteEvents_eq_flatMap (a : Nat) (vs : List Byte) :
    rewriteEvents a vs =
      (List.range vs.length).flatMap fun j => [.read (a + j), .write (a + j) (vs.getD j 0)] := by
  induction vs generalizing a with
  | nil => rfl
  | cons v vs ih =>
    rw [rewriteEvents_cons, ih]
    simp [List.range_succ_eq_map, List.flatMap_map, Nat.add_assoc, Nat.add_comm 1]

/-- The byte steps of a chunk rewrite its bytes in order with the bytes of `xchunk`. -/
theorem runEvents_cByte (d : Nat) (b : Block) (hp : b.phase = .cByte) (hi : b.idx + d = b.clen)
    (ha : b.ptr + b.clen ≤ Config.bufBytes) :
    runEvents d b = rewriteEvents (b.ptr + b.idx) (xchunk (bytesFrom b.mem (b.ptr + b.idx) d) b.ckey) := by
  induction d generalizing b with
  | zero => simp
  | succ d ih =>
    rw [runEvents_succ_of_ok d (seqStep_cByte_byte hp (by omega) (by omega)), seqEvents_cByte_byte hp (by omega),
      bytesFrom_succ, xchunk_cons, rewriteEvents_cons, ih]
    · dsimp only
      rw [← Nat.add_assoc, bytesFrom_congr fun x hx => get_set_of_ne b.mem _ (by omega)]
    · exact hp
    · dsimp only; omega
    · exact ha

/-- The block with a chunk opened by the `C_CHUNK` step (41_crypt.md R113 a, b). -/
def openedChunk (b : Block) : Block :=
  { b with clen := min b.rem Config.chunkBytes, ckey := b.key, idx := 0, phase := .cByte }

theorem seqStep_openedChunk {b : Block} (hp : b.phase = .cChunk) (hr : b.rem ≠ 0) :
    seqStep b = .ok (openedChunk b) := seqStep_cChunk_open hp hr

/-- One chunk of `CRYPT`, from one `C_CHUNK` to the next, rewrites the bytes of the chunk. -/
theorem runEvents_chunk (b : Block) (hp : b.phase = .cChunk) (hr : b.rem ≠ 0)
    (ha : b.ptr + b.rem ≤ Config.bufBytes) :
    runEvents (min b.rem 4 + 3) b =
      rewriteEvents b.ptr (xchunk (bytesFrom b.mem b.ptr (min b.rem 4)) b.key) := by
  have hidx : (openedChunk b).idx + min b.rem 4 = (openedChunk b).clen := by simp [openedChunk, Config.chunkBytes]
  have hfit : (openedChunk b).ptr + (openedChunk b).clen ≤ Config.bufBytes := by
    simp only [openedChunk, Config.chunkBytes]
    omega
  obtain ⟨m, hrun, -, -⟩ := runSeq_cByte (min b.rem 4) (openedChunk b) rfl hidx hfit
  rw [show min b.rem 4 + 3 = min b.rem 4 + (1 + 1) + 1 by omega,
    runEvents_succ_of_ok _ (seqStep_openedChunk hp hr), seqEvents_cChunk hp,
    runEvents_trans _ hrun, runEvents_cByte _ (openedChunk b) rfl hidx hfit,
    runEvents_succ_of_ok _ (seqStep_cByte_end rfl (le_refl _)), seqEvents_cByte_end rfl (le_refl _),
    runEvents_succ_of_ok _ (seqStep_cUpd rfl), seqEvents_cUpd rfl]
  simp [openedChunk]

/-- The steps of a `CRYPT` of at least one byte: those of its first chunk and those of the rest. -/
theorem cryptSteps_of_pos {n : Nat} (h : n ≠ 0) : cryptSteps n = (min n 4 + 3) + cryptSteps (n - min n 4) := by
  simp only [cryptSteps, chunkCount, Config.chunkBytes]
  omega

/-- From any `C_CHUNK` state, `CRYPT` rewrites the bytes still to come with their transform under the present `KEY` and
`SHIFT`. -/
theorem runEvents_cChunk (n : Nat) (b : Block) (hp : b.phase = .cChunk) (hr : b.rem = n)
    (ha : b.ptr + n ≤ Config.bufBytes) :
    runEvents (cryptSteps n) b = rewriteEvents b.ptr (cloop (bytesFrom b.mem b.ptr n) b.key b.shift).1 := by
  induction n using Nat.strong_induction_on generalizing b with
  | _ n ih =>
    subst hr
    by_cases h0 : b.rem = 0
    · rw [h0, show cryptSteps 0 = 0 + 1 from rfl, runEvents_succ_of_ok 0 (seqStep_cChunk_end hp h0),
        seqEvents_cChunk hp]
      rfl
    · obtain ⟨m, hrun, -, hget⟩ := runSeq_chunk b hp h0 ha
      have hrest : bytesFrom m (b.ptr + min b.rem 4) (b.rem - min b.rem 4) =
          (bytesFrom b.mem b.ptr b.rem).drop 4 := by
        rw [bytesFrom_drop, bytesFrom_congr fun x hx => (hget x).trans (if_neg (by omega))]
      have hne : bytesFrom b.mem b.ptr b.rem ≠ [] := by
        rw [← List.length_pos_iff, bytesFrom_length]
        omega
      rw [cryptSteps_of_pos h0, runEvents_trans _ hrun, runEvents_chunk b hp h0 ha,
        ih (b.rem - min b.rem 4) (by omega), cloop_step _ _ _ hne, rewriteEvents_append, bytesFrom_take,
        xchunk_length, bytesFrom_length, ← hrest]
      · exact hp
      · rfl
      · dsimp only; omega

/-! ## The transactions -/

theorem execEvents_mrd_of_lt {a : Nat} (b : Block) (h : a < Config.bufBytes) :
    execEvents (.mrd a) b = [.read a] := by
  simp [execEvents, addrInMemory, h]

theorem execEvents_mwr_of_lt {a : Nat} (v : Byte) (b : Block) (h : a < Config.bufBytes) :
    execEvents (.mwr a v) b = [.write a v] := by
  simp [execEvents, addrInMemory, h]

theorem execEvents_hash_of_fits {b : Block} (h : b.base.toNat + b.len.toNat ≤ Config.bufBytes) :
    execEvents .hash b = (List.range b.len.toNat).map fun j => .read (b.base.toNat + j) := by
  rw [execEvents, windowFits, decide_eq_true h, if_pos rfl]
  exact runEvents_hRun b.len.toNat (hashStart b) rfl rfl h

theorem execEvents_crypt_of_fits {b : Block} (h : b.base.toNat + b.len.toNat ≤ Config.bufBytes) :
    execEvents .crypt b = rewriteEvents b.base.toNat (crypt (window b) b.key).1 := by
  rw [execEvents, windowFits, decide_eq_true h, if_pos rfl, crypt, window_eq_bytesFrom]
  exact runEvents_cChunk b.len.toNat (cryptStart b) rfl rfl h

/-- Settles O39: `HASH` by induction on the bytes still to come, `CRYPT` by induction on the chunks, both from an arbitrary
state in the middle of the command. -/
theorem accessesAreMadeInTheStatedOrder : Obligations.AccessesAreMadeInTheStatedOrder := by
  intro b
  refine ⟨fun reg v => ⟨rfl, rfl⟩,
    fun a v ha => ⟨execEvents_mrd_of_lt b ha, execEvents_mwr_of_lt v b ha⟩,
    fun hw => ⟨execEvents_hash_of_fits hw, ?_⟩⟩
  have hlen : (crypt (window b) b.key).1.length = b.len.toNat := by
    rw [crypt, cloop_length, window_length]
  rw [execEvents_crypt_of_fits hw, rewriteEvents_eq_flatMap, hlen]

end Sys2Proof.Machine
end

section
/-! PROOFS. A transaction done twice (20_memory.md R48). -/

namespace Sys2Proof.Machine

theorem exec_rd_keeps_block {reg : Nat} {s t : State} (h : exec (.rd reg) s = .next t) : t.block = s.block := by
  rcases execRd_next h with ⟨v, -, rfl⟩ | ⟨-, rfl⟩
  · rfl
  · rfl

theorem exec_mrd_keeps_block {a : Nat} {s t : State} (h : exec (.mrd a) s = .next t) : t.block = s.block := by
  rw [exec, execMrd_eq] at h
  split at h
  · cases h; rfl
  · cases h; rfl

/-- Writing a register again with the same value writes nothing new. -/
theorem writeOperand_again {b b' : Block} {reg : Nat} {v : Word} (h : writeOperand b reg v = some b') :
    writeOperand b' reg v = some b' := by
  rcases writeOperand_cases h with ⟨rfl, rfl⟩ | ⟨rfl, rfl⟩ | ⟨rfl, rfl⟩
  · rfl
  · rfl
  · rfl

theorem exec_wr_again {reg : Nat} {v : Word} {s t u : State} (h₁ : exec (.wr reg v) s = .next t)
    (h₂ : exec (.wr reg v) t = .next u) : u.block = t.block := by
  rcases execWr_next h₂ with ⟨b₂, hb₂, rfl⟩ | ⟨-, rfl⟩
  · rcases execWr_next h₁ with ⟨b₁, hb₁, rfl⟩ | ⟨hnone, rfl⟩
    · exact Option.some.inj (hb₂.symm.trans (writeOperand_again hb₁))
    · exact absurd (hb₂.symm.trans hnone) (by simp)
  · rfl

/-- Writing a byte again with the same value gives the same list, in canonical form or not. -/
theorem set_again (m : Memory) (a : Nat) (v : Byte) : Memory.set (m.set a v) a v = m.set a v := by
  induction m with
  | nil => simp [Memory.set]
  | cons c m ih =>
    obtain ⟨b, w⟩ := c
    by_cases hlt : a < b
    · simp [Memory.set, hlt]
    · by_cases heq : a = b
      · simp [Memory.set, heq]
      · simp [Memory.set, hlt, heq, ih]

theorem exec_mwr_again {a : Nat} {v : Byte} {s t u : State} (h₁ : exec (.mwr a v) s = .next t)
    (h₂ : exec (.mwr a v) t = .next u) : u.block = t.block := by
  rw [exec, execMwr_eq] at h₁ h₂
  by_cases ha : a < Config.bufBytes
  · rw [if_pos ha, Host.Outcome.next.injEq] at h₁ h₂
    subst h₁ h₂
    simp [set_again]
  · rw [if_neg ha, Host.Outcome.next.injEq] at h₂
    rw [← h₂, refuse_block]

/-- `HASH` leaves its window and its operands alone, so hashing again gives the same block. -/
theorem hashed_hashed (b : Block) : hashed (hashed b) = hashed b := rfl

theorem exec_hash_again {s t u : State} (h₁ : exec .hash s = .next t) (h₂ : exec .hash t = .next u) :
    u.block = t.block := by
  rcases exec_hash_next h₂ with ⟨-, hu⟩ | ⟨hfit, hu⟩
  · exact hu
  · rcases exec_hash_next h₁ with ⟨hnot, ht⟩ | ⟨-, ht⟩
    · exact absurd (ht ▸ hfit) hnot
    · rw [hu, ht, hashed_hashed]

/-- Any transaction but `CRYPT` done twice leaves the block as once. -/
theorem exec_again {i : Instr} {s t u : State} (hi : i ≠ .crypt) (h₁ : exec i s = .next t)
    (h₂ : exec i t = .next u) : u.block = t.block := by
  cases i with
  | rd reg => exact exec_rd_keeps_block h₂
  | wr reg v => exact exec_wr_again h₁ h₂
  | mrd a => exact exec_mrd_keeps_block h₂
  | mwr a v => exact exec_mwr_again h₁ h₂
  | hash => exact exec_hash_again h₁ h₂
  | crypt => exact absurd rfl hi

/-! ## `CRYPT` done twice, on a window of one byte -/

/-- A window of the one byte 0 at address 0, under the key 1. -/
def oneByte : State :=
  { State.reset with block := { Block.reset with len := 1, key := 1, mem := [(0, 0)] } }

/-- After one `CRYPT`: the byte met the key byte 1, and `KEY` is `next_key(1, 5)`. -/
def oneByteOnce : State :=
  { oneByte with
    block := { oneByte.block with key := 0x21, shift := 5, mem := [(0, 0x01)], ptr := 1, clen := 1, idx := 1 }
    responses := [⟨.ok, 0⟩] }

/-- After the second `CRYPT`: the byte met the key byte 0x21, and `KEY` is `next_key(0x21, 5)`. -/
def oneByteTwice : State :=
  { oneByteOnce with
    block := { oneByteOnce.block with key := 0x401, mem := [(0, 0x20)] }
    responses := [⟨.ok, 0⟩, ⟨.ok, 0⟩] }

theorem exec_crypt_oneByte : exec .crypt oneByte = .next oneByteOnce := rfl

theorem exec_crypt_oneByteOnce : exec .crypt oneByteOnce = .next oneByteTwice := rfl

/-- Settles O44: each transaction but `CRYPT` by what it writes; `CRYPT` by the one-byte window, which the second run
transforms under the key the first one left. -/
theorem repeatingATransaction : Obligations.RepeatingATransaction := by
  have hkey : oneByteTwice.block.key ≠ oneByteOnce.block.key := by decide
  have hwindow : window oneByteTwice.block ≠ window oneByteOnce.block := by decide
  exact ⟨fun _ _ _ h => exec_rd_keeps_block h, fun _ _ _ h => exec_mrd_keeps_block h,
    fun _ _ _ _ hi h₁ h₂ => exec_again hi h₁ h₂,
    oneByte, oneByteOnce, oneByteTwice, exec_crypt_oneByte, exec_crypt_oneByteOnce, hkey, hwindow⟩

end Sys2Proof.Machine
end

section
/-! PROOFS. The decoder against the match and mask table (30_encoding.md sections 2 and 4): the must-be-zero fields of each
operation, what each answer of the decoder means, and which words a row of the table selects. -/

namespace Sys2Proof

variable {q : Request} {o : Op}

/-! ## The must-be-zero fields of each operation (30_encoding.md R63) -/

@[simp] theorem reservedFieldsZero_rd :
    reservedFieldsZero .rd q = true ↔ rsvField q = 0 ∧ byteField q = 0 ∧ dataField q = 0 := by
  simp [reservedFieldsZero]

@[simp] theorem reservedFieldsZero_wr :
    reservedFieldsZero .wr q = true ↔ rsvField q = 0 ∧ byteField q = 0 := by
  simp [reservedFieldsZero]

@[simp] theorem reservedFieldsZero_mrd :
    reservedFieldsZero .mrd q = true ↔ regField q = 0 ∧ rsvField q = 0 ∧ byteField q = 0 := by
  simp [reservedFieldsZero, and_left_comm]

@[simp] theorem reservedFieldsZero_mwr :
    reservedFieldsZero .mwr q = true ↔ regField q = 0 ∧ rsvField q = 0 := by
  simp [reservedFieldsZero, and_comm]

@[simp] theorem reservedFieldsZero_hash :
    reservedFieldsZero .hash q = true ↔
      regField q = 0 ∧ rsvField q = 0 ∧ byteField q = 0 ∧ dataField q = 0 := by
  simp [reservedFieldsZero, and_left_comm, and_assoc]

@[simp] theorem reservedFieldsZero_crypt :
    reservedFieldsZero .crypt q = true ↔
      regField q = 0 ∧ rsvField q = 0 ∧ byteField q = 0 ∧ dataField q = 0 := by
  simp [reservedFieldsZero, and_left_comm, and_assoc]

/-! ## The codes of the six operations -/

theorem Op.code_injective : Function.Injective Op.code := fun o₁ o₂ h =>
  Option.some.inj ((ofCode_code o₁).symm.trans (h ▸ ofCode_code o₂))

theorem mem_codes_iff {c : BitVec 4} : c ∈ [0x1#4, 0x2#4, 0x3#4, 0x4#4, 0x8#4, 0x9#4] ↔ ∃ o : Op, c = o.code := by
  have hnamed : c ∈ [0x1#4, 0x2#4, 0x3#4, 0x4#4, 0x8#4, 0x9#4] ↔ Op.ofCode c ≠ none := by
    revert c
    decide
  rw [hnamed, Option.ne_none_iff_exists']
  simp only [ofCode_eq_some]

/-- A code that names no operation is none of the six. -/
theorem ofCode_eq_none_iff {c : BitVec 4} : Op.ofCode c = none ↔ ∀ o : Op, c ≠ o.code := by
  simp only [Option.eq_none_iff_forall_ne_some, ne_eq, ofCode_eq_some]

/-! ## What each answer of the decoder means (30_encoding.md R64) -/

theorem decode_of_code (h : opField q = o.code) :
    decode q = if reservedFieldsZero o q then .instr (instrOf o q) else .refused .eField := by
  rw [decode, h, ofCode_code]

theorem decode_of_no_code (h : Op.ofCode (opField q) = none) : decode q = .refused .eOp := by
  rw [decode, h]

theorem decode_of_reserved_nonzero (hop : opField q = o.code) (hz : ¬ reservedFieldsZero o q = true) :
    decode q = .refused .eField := by
  rw [decode_of_code hop, if_neg hz]

theorem decode_of_reserved_zero (hop : opField q = o.code) (hz : reservedFieldsZero o q = true) :
    decode q = .instr (instrOf o q) := by
  rw [decode_of_code hop, if_pos hz]

theorem decode_eq_eOp_iff : decode q = .refused .eOp ↔ ∀ o : Op, opField q ≠ o.code := by
  rw [← ofCode_eq_none_iff]
  refine ⟨fun h => ?_, decode_of_no_code⟩
  rcases decode_cases q with ⟨hnone, -⟩ | ⟨_, -, -, hd⟩ | ⟨_, -, -, hd⟩
  · exact hnone
  · simp [hd] at h
  · simp [hd] at h

theorem decode_eq_eField_iff :
    decode q = .refused .eField ↔ ∃ o : Op, opField q = o.code ∧ ¬ reservedFieldsZero o q = true := by
  refine ⟨fun h => ?_, fun ⟨_, hop, hz⟩ => decode_of_reserved_nonzero hop hz⟩
  rcases decode_cases q with ⟨-, hd⟩ | ⟨o, hop, hz, -⟩ | ⟨_, -, -, hd⟩
  · simp [hd] at h
  · exact ⟨o, ofCode_eq_some.mp hop, by simp [hz]⟩
  · simp [hd] at h

theorem decode_accepts_iff :
    (∃ i, decode q = .instr i) ↔ ∃ o : Op, opField q = o.code ∧ reservedFieldsZero o q = true := by
  refine ⟨fun ⟨i, h⟩ => ?_, fun ⟨_, hop, hz⟩ => ⟨_, decode_of_reserved_zero hop hz⟩⟩
  rcases decode_cases q with ⟨-, hd⟩ | ⟨_, -, -, hd⟩ | ⟨o, hop, hz, -⟩
  · simp [hd] at h
  · simp [hd] at h
  · exact ⟨o, ofCode_eq_some.mp hop, hz⟩

/-! ## The rows of the table (30_encoding.md R63) -/

/-- Request words are equal when their five fields are: no bit lies outside them (30_encoding.md R61). -/
theorem request_eq_iff {p q : Request} :
    p = q ↔ opField p = opField q ∧ regField p = regField q ∧ rsvField p = rsvField q ∧
      byteField p = byteField q ∧ dataField p = dataField q := by
  refine ⟨by rintro rfl; simp, fun ⟨hop, hreg, hrsv, hbyte, hdata⟩ => ?_⟩
  rw [← requestWord_fields p, ← requestWord_fields q, hop, hreg, hrsv, hbyte, hdata]

/-- A row selects a word by what its mask keeps of each field. -/
theorem selects_iff (r : OpcodeRow) (q : Request) :
    r.selects q = true ↔
      opField q &&& opField r.mask = opField r.pattern ∧ regField q &&& regField r.mask = regField r.pattern ∧
      rsvField q &&& rsvField r.mask = rsvField r.pattern ∧
      byteField q &&& byteField r.mask = byteField r.pattern ∧
      dataField q &&& dataField r.mask = dataField r.pattern := by
  rw [OpcodeRow.selects, beq_iff_eq, request_eq_iff]
  simp only [opField, regField, rsvField, byteField, dataField, BitVec.extractLsb'_and]

/-- A row of the table selects exactly the words of its operation's code whose must-be-zero fields hold zero: in each row the
mask keeps `op` and those fields whole, and the pattern is zero there. -/
theorem row_selects_iff {r : OpcodeRow} (hr : r ∈ opcodeTable) (q : Request) :
    r.selects q = true ↔ opField q = r.op.code ∧ reservedFieldsZero r.op q = true := by
  have keep4 (x : BitVec 4) : x &&& 0xF#4 = x := BitVec.and_allOnes
  have keep8 (x : BitVec 8) : x &&& 0xFF#8 = x := BitVec.and_allOnes
  have keep16 (x : BitVec 16) : x &&& 0xFFFF#16 = x := BitVec.and_allOnes
  have keep32 (x : BitVec 32) : x &&& 0xFFFFFFFF#32 = x := BitVec.and_allOnes
  rw [selects_iff]
  simp only [opcodeTable, List.mem_cons, List.not_mem_nil, or_false] at hr
  rcases hr with rfl | rfl | rfl | rfl | rfl | rfl <;>
    simp [opField, regField, rsvField, byteField, dataField, Op.code, keep4, keep8, keep16, keep32]

theorem exists_row (o : Op) : ∃ r ∈ opcodeTable, r.op = o := by
  cases o <;> decide

/-- Some row selects the word exactly when the word has an operation's code and zero in its must-be-zero fields. -/
theorem some_row_selects_iff :
    (∃ r ∈ opcodeTable, r.selects q = true) ↔ ∃ o : Op, opField q = o.code ∧ reservedFieldsZero o q = true := by
  constructor
  · rintro ⟨r, hr, hsel⟩
    exact ⟨r.op, (row_selects_iff hr q).mp hsel⟩
  · rintro ⟨o, hq⟩
    obtain ⟨r, hr, rfl⟩ := exists_row o
    exact ⟨r, hr, (row_selects_iff hr q).mpr hq⟩

/-- A word with an operation's code is refused for its fields exactly when no row selects it. -/
theorem no_row_selects_iff (hop : opField q = o.code) :
    (∀ r ∈ opcodeTable, r.selects q = false) ↔ ¬ reservedFieldsZero o q = true := by
  have hsome : (∃ r ∈ opcodeTable, r.selects q = true) ↔ reservedFieldsZero o q = true := by
    rw [some_row_selects_iff]
    exact ⟨fun ⟨_, hop', hz⟩ => Op.code_injective (hop.symm.trans hop') ▸ hz, fun hz => ⟨o, hop, hz⟩⟩
  rw [← hsome]
  simp only [not_exists, not_and, Bool.not_eq_true]

/-- Settles O3: each answer of the decoder by the operation code and the must-be-zero fields, and the rows by the same. -/
theorem decoderIsTotalAndFollowsTheTable : Obligations.DecoderIsTotalAndFollowsTheTable := by
  intro q
  refine ⟨?_, ?_, ?_, fun r hr hsel => ?_⟩
  · rw [decode_eq_eOp_iff, mem_codes_iff, not_exists]
  · rw [decode_eq_eField_iff, mem_codes_iff]
    constructor
    · rintro ⟨o, hop, hz⟩
      exact ⟨⟨o, hop⟩, (no_row_selects_iff hop).mpr hz⟩
    · rintro ⟨⟨o, hop⟩, hnone⟩
      exact ⟨o, hop, (no_row_selects_iff hop).mp hnone⟩
  · rw [decode_accepts_iff, some_row_selects_iff]
  · obtain ⟨hop, hz⟩ := (row_selects_iff hr q).mp hsel
    exact decode_of_reserved_zero hop hz

end Sys2Proof
end

section
/-! PROOFS. One step with a request waiting (30_encoding.md R60, R62): every transaction answers a next state with one
response more, and the form of that response. -/

namespace Sys2Proof.Machine

/-! ## The fields of a response word (30_encoding.md R62) -/

@[simp] theorem word_status (r : Response) : r.word.extractLsb' 32 4 = r.status.code :=
  BitVec.extractLsb'_append_eq_left

@[simp] theorem word_rdata (r : Response) : r.word.extractLsb' 0 32 = r.rdata :=
  BitVec.extractLsb'_append_eq_right

/-- The codes 6 to 15 are never produced (60_exceptions.md R161). -/
theorem word_status_le (r : Response) : (r.word.extractLsb' 32 4).toNat ≤ 5 := by
  rw [word_status]
  cases r.status <;> decide

/-- The code of `OK` is zero, and no other is (60_exceptions.md R161). -/
theorem word_status_eq_zero_iff (r : Response) : (r.word.extractLsb' 32 4).toNat = 0 ↔ r.status = .ok := by
  rw [word_status]
  cases r.status <;> decide

/-! ## A run of `CRYPT` ends -/

/-- From any `C_CHUNK` state whose bytes still to come lie in the memory, the sequencer steps of `CRYPT` run without a
fault. -/
theorem runSeq_cChunk_ok (n : Nat) (b : Block) (hp : b.phase = .cChunk) (hr : b.rem = n)
    (ha : b.ptr + n ≤ Config.bufBytes) : ∃ b', runSeq (cryptSteps n) b = .ok b' := by
  induction n using Nat.strong_induction_on generalizing b with
  | _ n ih =>
    subst hr
    by_cases h0 : b.rem = 0
    · rw [h0]
      exact ⟨_, runSeq_succ_of_ok 0 (seqStep_cChunk_end hp h0)⟩
    · obtain ⟨m, hrun, -, -⟩ := runSeq_chunk b hp h0 ha
      rw [cryptSteps_of_pos h0, runSeq_trans _ hrun]
      exact ih (b.rem - min b.rem 4) (by omega) _ hp rfl (by dsimp only; omega)

theorem runSeq_cryptStart_ok {b : Block} (h : b.base.toNat + b.len.toNat ≤ Config.bufBytes) :
    ∃ b', runSeq (cryptSteps b.len.toNat) (cryptStart b) = .ok b' :=
  runSeq_cChunk_ok b.len.toNat (cryptStart b) rfl rfl h

/-! ## What a transaction answers -/

/-- From `s` the outcome is a next state that has taken no request and delivered exactly the response `r`. -/
def Answers (s : State) (o : Host.Outcome State Fault Refusal) (r : Response) : Prop :=
  ∃ t, o = .next t ∧ t.requests = s.requests ∧ t.responses = s.responses ++ [r]

theorem answers_respond (s : State) (c : Status) (v : Word) : Answers s (.next (s.respond c v)) ⟨c, v⟩ :=
  ⟨_, rfl, rfl, rfl⟩

theorem answers_refuse (s : State) (c : Status) : Answers s (.next (s.refuse c)) ⟨c, 0⟩ :=
  answers_respond s c 0

theorem answers_next_block (s : State) (b : Block) (v : Word) :
    Answers s (.next { s with block := b, responses := s.responses ++ [⟨.ok, v⟩] }) ⟨.ok, v⟩ :=
  ⟨_, rfl, rfl, rfl⟩

/-- The data of a response `OK` (30_encoding.md R62): the value read by `RD` and `MRD`, zero for the others; none for a
register index that holds no register. -/
def valueRead (b : Block) : Instr → Option Word
  | .rd reg => readOperand b reg
  | .mrd a => some (zextByte (b.mem.get a))
  | .wr _ _ => some 0
  | .mwr _ _ => some 0
  | .hash => some 0
  | .crypt => some 0

theorem valueRead_rd (b : Block) (reg : Nat) : valueRead b (.rd reg) = readOperand b reg := rfl

theorem valueRead_mrd (b : Block) (a : Nat) : valueRead b (.mrd a) = some (zextByte (b.mem.get a)) := rfl

theorem valueRead_of_not_read (b : Block) {i : Instr} (hrd : ∀ reg, i ≠ .rd reg) (hmrd : ∀ a, i ≠ .mrd a) :
    valueRead b i = some 0 := by
  cases i with
  | rd reg => exact absurd rfl (hrd reg)
  | mrd a => exact absurd rfl (hmrd a)
  | wr reg v => rfl
  | mwr a v => rfl
  | hash => rfl
  | crypt => rfl

/-- A transaction's response (30_encoding.md R62, 60_exceptions.md R160, R168): `OK` with the value it reads, or a refusal
with zero. -/
def Responds (s : State) (i : Instr) (o : Host.Outcome State Fault Refusal) : Prop :=
  (∃ v, valueRead s.block i = some v ∧ Answers s o ⟨.ok, v⟩) ∨ ∃ c, c ≠ .ok ∧ Answers s o ⟨c, 0⟩

theorem execRd_responds (reg : Nat) (s : State) : Responds s (.rd reg) (execRd reg s) := by
  cases hr : readOperand s.block reg with
  | some v =>
    rw [execRd, hr]
    exact .inl ⟨v, hr, answers_next_block s s.block v⟩
  | none =>
    rw [execRd, hr]
    exact .inr ⟨.eReg, by decide, answers_refuse s .eReg⟩

theorem execWr_responds (reg : Nat) (v : Word) (s : State) : Responds s (.wr reg v) (execWr reg v s) := by
  cases hw : writeOperand s.block reg v with
  | some b =>
    rw [execWr, hw]
    exact .inl ⟨0, rfl, answers_next_block s b 0⟩
  | none =>
    rw [execWr, hw]
    exact .inr ⟨.eReg, by decide, answers_refuse s .eReg⟩

theorem execMrd_responds (a : Nat) (s : State) : Responds s (.mrd a) (execMrd a s) := by
  rw [execMrd_eq]
  split
  · exact .inl ⟨_, valueRead_mrd s.block a, answers_respond s .ok _⟩
  · exact .inr ⟨.eAddr, by decide, answers_refuse s .eAddr⟩

theorem execMwr_responds (a : Nat) (v : Byte) (s : State) : Responds s (.mwr a v) (execMwr a v s) := by
  rw [execMwr_eq]
  split
  · exact .inl ⟨0, rfl, answers_next_block s _ 0⟩
  · exact .inr ⟨.eAddr, by decide, answers_refuse s .eAddr⟩

/-- A command answers when its sequencer runs without a fault over every window that fits. -/
theorem runCommand_responds {s : State} {i : Instr} {start : Block} {n : Nat} (hi : valueRead s.block i = some 0)
    (hrun : s.block.base.toNat + s.block.len.toNat ≤ Config.bufBytes → ∃ b, runSeq n start = .ok b) :
    Responds s i (s.runCommand start n) := by
  by_cases hw : s.block.base.toNat + s.block.len.toNat ≤ Config.bufBytes
  · obtain ⟨b, hb⟩ := hrun hw
    rw [runCommand_of_fits start b n hw hb]
    exact .inl ⟨0, hi, answers_next_block s b 0⟩
  · rw [runCommand_of_not_fits start n hw]
    exact .inr ⟨.eRange, by decide, answers_refuse s .eRange⟩

/-- Every transaction answers, from every state. -/
theorem exec_responds (i : Instr) (s : State) : Responds s i (exec i s) := by
  cases i with
  | rd reg => exact execRd_responds reg s
  | wr reg v => exact execWr_responds reg v s
  | mrd a => exact execMrd_responds a s
  | mwr a v => exact execMwr_responds a v s
  | hash => exact runCommand_responds rfl fun hw => ⟨_, runSeq_hashStart hw⟩
  | crypt => exact runCommand_responds rfl runSeq_cryptStart_ok

/-! ## What a step answers -/

variable {s : State} {q : Request} {qs : List Request}

theorem step_of_instr {i : Instr} (h : s.requests = q :: qs) (hd : decode q = .instr i) :
    step s = exec i { s with requests := qs } := by
  simp [step, takeRequest_cons h, hd]

theorem step_of_refused {c : DecodeRefusal} (h : s.requests = q :: qs) (hd : decode q = .refused c) :
    step s = .next { s with requests := qs, responses := s.responses ++ [⟨statusOfDecode c, 0⟩] } := by
  simp [step, takeRequest_cons h, hd, State.refuse, State.respond]

theorem statusOfDecode_ne_ok (c : DecodeRefusal) : statusOfDecode c ≠ .ok := by cases c <;> decide

/-- With a request waiting, a step delivers one response: `OK` with the value that the decoded transaction reads, or a
refusal with zero, by the decoder or by the transaction. -/
theorem step_answers (h : s.requests = q :: qs) :
    (∃ i v, decode q = .instr i ∧ valueRead s.block i = some v ∧
      Answers { s with requests := qs } (step s) ⟨.ok, v⟩) ∨
    ∃ c, c ≠ .ok ∧ Answers { s with requests := qs } (step s) ⟨c, 0⟩ := by
  cases hd : decode q with
  | refused c =>
    rw [step_of_refused h hd]
    exact .inr ⟨statusOfDecode c, statusOfDecode_ne_ok c, answers_refuse { s with requests := qs } _⟩
  | instr i =>
    rw [step_of_instr h hd]
    rcases exec_responds i { s with requests := qs } with ⟨v, hv, ha⟩ | hrefused
    · exact .inl ⟨i, v, rfl, hv, ha⟩
    · exact .inr hrefused

/-- Settles O8: the step by `step_answers`; for a response `OK`, each clause on the data by the transaction that the word
decodes to. -/
theorem eachRequestGetsOneResponseOfTheStatedForm : Obligations.EachRequestGetsOneResponseOfTheStatedForm := by
  intro s q qs h
  rcases step_answers h with ⟨i, v, hd, hv, t, hstep, hreq, hresp⟩ | ⟨c, hc, t, hstep, hreq, hresp⟩
  · refine ⟨t, ⟨.ok, v⟩, hstep, hreq, hresp, word_status_le _, word_status_eq_zero_iff _, word_rdata _,
      fun hne => absurd rfl hne, fun j hj hrd hmrd => ?_, fun reg hj _ => ?_, fun a hj _ => ?_⟩
    · obtain rfl : i = j := by simpa [hd] using hj
      exact Option.some.inj (hv.symm.trans (valueRead_of_not_read s.block hrd hmrd))
    · obtain rfl : i = .rd reg := by simpa [hd] using hj
      exact hv
    · obtain rfl : i = .mrd a := by simpa [hd] using hj
      exact (Option.some.inj hv).symm
  · exact ⟨t, ⟨c, 0⟩, hstep, hreq, hresp, word_status_le _, word_status_eq_zero_iff _, word_rdata _,
      fun _ => rfl, fun _ _ _ _ => rfl, fun _ _ hok => absurd hok hc, fun _ _ hok => absurd hok hc⟩

/-! ## Refusals by the decoder (60_exceptions.md R162, R163) -/

theorem step_eOp (h : s.requests = q :: qs)
    (hop : opField q ∈ [0x0#4, 0x5#4, 0x6#4, 0x7#4, 0xA#4, 0xB#4, 0xC#4, 0xD#4, 0xE#4, 0xF#4]) :
    step s = .next { s with requests := qs, responses := s.responses ++ [⟨.eOp, 0⟩] } :=
  step_of_refused h (decode_of_no_code (ofCode_eq_none.mpr hop))

theorem step_eField (o : Op) (h : s.requests = q :: qs) (hop : opField q = o.code)
    (hz : ¬ reservedFieldsZero o q = true) :
    step s = .next { s with requests := qs, responses := s.responses ++ [⟨.eField, 0⟩] } :=
  step_of_refused h (decode_of_reserved_nonzero hop hz)

/-- Settles O16: a reserved code names no operation, and the code of the all-zero word is one of the ten. -/
theorem reservedOperationCodesAreRefused : Obligations.ReservedOperationCodesAreRefused :=
  ⟨fun _ _ _ h hop => step_eOp h hop, fun _ _ h => step_eOp h (by decide)⟩

/-- Settles O17: operation by operation, a field of 30_encoding.md R63's list that is not zero. -/
theorem nonzeroReservedFieldsAreRefused : Obligations.NonzeroReservedFieldsAreRefused := by
  intro s q qs h hq
  rcases hq with ⟨hop, hz⟩ | ⟨hop, hz⟩ | ⟨hop, hz⟩ | ⟨hop, hz⟩ | ⟨hop | hop, hz⟩
  · exact step_eField .rd h hop (by rw [reservedFieldsZero_rd]; tauto)
  · exact step_eField .wr h hop (by rw [reservedFieldsZero_wr]; tauto)
  · exact step_eField .mrd h hop (by rw [reservedFieldsZero_mrd]; tauto)
  · exact step_eField .mwr h hop (by rw [reservedFieldsZero_mwr]; tauto)
  · exact step_eField .hash h hop (by rw [reservedFieldsZero_hash]; tauto)
  · exact step_eField .crypt h hop (by rw [reservedFieldsZero_crypt]; tauto)

end Sys2Proof.Machine
end

section
/-! PROOFS. The seed hash: its step and its closed form over the natural numbers (40_hash.md section 1), and the `H_RUN`
steps one byte at a time (40_hash.md section 3). -/

namespace Sys2Proof.Machine

/-! ## One step of the hash (40_hash.md R81) -/

/-- Reduced once, after both operations. -/
theorem hstep_toNat (a : Word) (b : Byte) : (hstep a b).toNat = (a.toNat * 33 + b.toNat) % 2 ^ 32 := by
  have hmul : Config.hashMul.toNat = 33 := rfl
  rw [hstep, add32_toNat, mul32_toNat, zextByte_toNat, hmul, Nat.mod_add_mod]

/-- Settles O24: the inner reduction of the product does not show under the outer one. -/
theorem hashStepIsMultiplyAddModulo : Obligations.HashStepIsMultiplyAddModulo := fun a b =>
  ⟨hstep_toNat a b, by rw [hstep_toNat, Nat.mod_add_mod]⟩

/-! ## The closed form (40_hash.md R84) -/

/-- What the bytes add to the hash before reduction: the last byte with weight 1, each earlier one with 33 times the weight
of the next. -/
def weightedSum (B : List Byte) : ℕ := ∑ j ∈ Finset.range B.length, (B.getD j 0).toNat * 33 ^ (B.length - 1 - j)

@[simp] theorem weightedSum_nil : weightedSum [] = 0 := rfl

theorem weightedSum_cons (b : Byte) (t : List Byte) :
    weightedSum (b :: t) = b.toNat * 33 ^ t.length + weightedSum t := by
  simp only [weightedSum, List.length_cons, Finset.sum_range_succ', List.getD_cons_succ, List.getD_cons_zero,
    Nat.add_sub_cancel, Nat.sub_zero]
  rw [Nat.add_comm]
  simp only [Nat.sub_sub, Nat.add_comm 1]

/-- The fold from any accumulator; each byte multiplies the accumulator by 33 once. -/
theorem hfold_toNat (a : Word) (B : List Byte) :
    (hfold a B).toNat = (a.toNat * 33 ^ B.length + weightedSum B) % 2 ^ 32 := by
  induction B generalizing a with
  | nil => simp [Nat.mod_eq_of_lt a.isLt]
  | cons b t ih =>
    calc (hfold (hstep a b) t).toNat
        = ((a.toNat * 33 + b.toNat) % 2 ^ 32 * 33 ^ t.length + weightedSum t) % 2 ^ 32 := by rw [ih, hstep_toNat]
      _ = ((a.toNat * 33 + b.toNat) * 33 ^ t.length + weightedSum t) % 2 ^ 32 :=
        ((Nat.mod_modEq _ _).mul_right _).add_right _
      _ = (a.toNat * 33 ^ (b :: t).length + weightedSum (b :: t)) % 2 ^ 32 := by
        rw [weightedSum_cons, List.length_cons]
        ring_nf

/-- The hash over a buffer in pieces, taken in order. -/
theorem hfold_append (a : Word) (X Y : List Byte) : hfold a (X ++ Y) = hfold (hfold a X) Y := by
  induction X generalizing a with
  | nil => rfl
  | cons b t ih => exact ih (hstep a b)

/-- 33 is 32 and 1. -/
theorem mul32_33 (a : Word) : mul32 a 33 = add32 (shl32 a 5) a := by
  apply BitVec.eq_of_toNat_eq
  have h33 : (33 : Word).toNat = 2 ^ 5 + 1 := rfl
  rw [mul32_toNat, add32_toNat, shl32_toNat, Nat.mod_add_mod, h33, Nat.mul_add, Nat.mul_one]

/-- Settles O25: the closed form is `hfold_toNat` from the initial accumulator. -/
theorem seedHashHasItsClosedForm : Obligations.SeedHashHasItsClosedForm :=
  ⟨fun B => hfold_toNat Config.hashInit B, hfold_append, mul32_33⟩

/-! ## The sequencer byte by byte (40_hash.md R88) -/

/-- `k` of the bytes still to come are folded into `ACC`; the command goes on in `H_RUN`. -/
theorem runSeq_hRun_bytes (k : Nat) (b : Block) (hp : b.phase = .hRun) (hr : k ≤ b.rem)
    (ha : b.ptr + k ≤ Config.bufBytes) :
    runSeq k b = .ok { b with acc := hfold b.acc (bytesFrom b.mem b.ptr k), ptr := b.ptr + k, rem := b.rem - k } := by
  induction k generalizing b with
  | zero => rfl
  | succ k ih =>
    rw [runSeq_succ_of_ok _ (seqStep_hRun_byte hp (by omega) (by omega)), ih]
    · simp [bytesFrom_succ, Nat.add_assoc, Nat.sub_sub, Nat.add_comm 1]
    · exact hp
    · dsimp only; omega
    · dsimp only; omega

/-- Settles O27: the first `k` bytes by `runSeq_hRun_bytes` from the start state, the whole run by `runSeq_hashStart`. -/
theorem hashSequencerRefinesHash : Obligations.HashSequencerRefinesHash := by
  intro b hfits
  refine ⟨fun k hk => ?_, runSeq_hashStart hfits⟩
  have hrun := runSeq_hRun_bytes k (hashStart b) rfl hk (by rw [hashStart_ptr]; omega)
  rw [hrun, window_eq_bytesFrom, bytesFrom_take, Nat.min_eq_right hk]
  rfl

end Sys2Proof.Machine
end

section
/-! PROOFS. The key schedule (41_crypt.md section 2): the shift of each update, the period of the shifts, and the key at
shift 0. -/

namespace Sys2Proof.Machine

/-! ## The shift sequence (41_crypt.md R101, R103, R120) -/

/-- `s_n = 5n mod 32` (41_crypt.md R101). -/
theorem scheduleShift_toNat (n : Nat) : (scheduleShift n).toNat = 5 * n % 32 := by
  induction n with
  | zero => rfl
  | succ n ih =>
    rw [scheduleShift, nextShift_toNat, ih]
    omega

theorem scheduleShift_eq_iff {n : Nat} {v : ShiftAmt} : scheduleShift n = v ↔ 5 * n % 32 = v.toNat := by
  rw [← BitVec.toNat_inj, scheduleShift_toNat]

/-- 5 is a unit modulo 32, so only the multiples of 32 have shift 0 (41_crypt.md R103). -/
theorem scheduleShift_eq_zero_iff {n : Nat} : scheduleShift n = 0 ↔ 32 ∣ n := by
  have hzero : (0 : ShiftAmt).toNat = 0 := rfl
  rw [scheduleShift_eq_iff, hzero]
  omega

theorem scheduleShift_add_32 (n : Nat) : scheduleShift (n + 32) = scheduleShift n := by
  rw [scheduleShift_eq_iff, scheduleShift_toNat]
  omega

/-- 13 is the inverse of 5 modulo 32: the shift `v` belongs to the update `13 v` and to no other of the period. -/
theorem scheduleShift_eq_iff_of_lt {n : Nat} (v : ShiftAmt) (hn : n < 32) :
    scheduleShift (n + 1) = v ↔ n = (13 * v.toNat + 31) % 32 := by
  have hv := v.isLt
  rw [scheduleShift_eq_iff]
  omega

/-! ## The number of chunks (41_crypt.md R107) -/

theorem chunkCount_eq (L : Nat) : chunkCount L = (L + 3) / 4 := rfl

/-- 32 chunks need at least 125 bytes (41_crypt.md R103, R121). -/
theorem chunkCount_ge_32_iff {L : Nat} : 32 ≤ chunkCount L ↔ 125 ≤ L := by
  rw [chunkCount_eq]
  omega

/-- Settles O29: the closed form of the shift, and the key update as `scheduleKey` makes it. -/
theorem shiftIsZeroExactlyAtEvery32ndUpdate : Obligations.ShiftIsZeroExactlyAtEvery32ndUpdate :=
  ⟨scheduleShift_toNat, fun _ _ => scheduleShift_eq_zero_iff, fun _ _ => rfl, fun _ => rfl,
    fun _ => chunkCount_ge_32_iff, rotl32_zero⟩

/-! ## The key at shift 0 (41_crypt.md R121) -/

/-- At shift 0 every bit of the key but bit 0 meets itself, and bit 0 meets a one. -/
theorem nextKey_zero (k : Word) : nextKey k 0 = if k.getLsbD 0 then 0 else 1 := by
  have hbit : bit32 0 = 1 := rfl
  rw [nextKey, rotl32_zero, hbit, xor32, or32]
  ext i hi
  cases i with
  | zero => cases h : k.getLsbD 0 <;> simp_all [BitVec.getLsbD_eq_getElem]
  | succ i => split <;> simp

/-- Whatever the initial key, the 32nd update is made at shift 0. -/
theorem scheduleKey_32 (K : Word) : scheduleKey K 32 = if (scheduleKey K 31).getLsbD 0 then 0 else 1 := by
  have hshift : scheduleShift 32 = 0 := scheduleShift_eq_zero_iff.mpr (dvd_refl 32)
  rw [← nextKey_zero, ← hshift, scheduleKey]

/-- The schedule goes on from a key alone: equal keys after `m` updates stay equal. -/
theorem scheduleKey_add_congr {K K' : Word} {m : Nat} (h : scheduleKey K m = scheduleKey K' m) (n : Nat) :
    scheduleKey K (m + n) = scheduleKey K' (m + n) := by
  induction n with
  | zero => exact h
  | succ n ih => rw [← Nat.add_assoc, scheduleKey, scheduleKey, ih]

/-- Settles O31: the collapse by `nextKey_zero`, from there on by `scheduleKey_add_congr`. -/
theorem keyCollapsesAtShiftZero : Obligations.KeyCollapsesAtShiftZero := by
  refine ⟨nextKey_zero, fun K => ?_, fun _ _ => scheduleKey_add_congr, fun L hL => ?_⟩
  · rw [scheduleKey_32]
    split
    · exact .inl rfl
    · exact .inr rfl
  · by_contra h
    have := chunkCount_ge_32_iff.mp (Nat.le_of_not_lt h)
    omega

end Sys2Proof.Machine
end

section
/-! PROOFS. The transform in closed form (41_crypt.md sections 3 and 6): byte `j` meets byte `j mod 4` of the key of its
chunk. -/

namespace Sys2Proof.Machine

/-- The byte of the keystream that meets offset `j` of the buffer (41_crypt.md R107). -/
def keystreamByte (K : Word) (j : Nat) : Byte := keyByte (scheduleKey K (j / 4)) (j % 4)

/-- Byte `i` of chunk `n` (41_crypt.md R105). -/
theorem keystreamByte_chunk (K : Word) {n i : Nat} (hi : i < 4) :
    keystreamByte K (4 * n + i) = keyByte (scheduleKey K n) i := by
  rw [keystreamByte, show (4 * n + i) / 4 = n by omega, show (4 * n + i) % 4 = i by omega]

theorem xchunk_getElem? (bs : List Byte) (k : Word) (i : Nat) :
    (xchunk bs k)[i]? = bs[i]?.map fun c => c ^^^ keyByte k i := by
  rw [xchunk, List.getElem?_mapIdx]

/-- Induction over a buffer chunk by chunk, as the recursion of 41_crypt.md R106 takes it. -/
theorem chunk_induction {P : List Byte → Prop} (nil : P []) (chunk : ∀ B, B ≠ [] → P (B.drop 4) → P B)
    (B : List Byte) : P B := by
  induction hn : B.length using Nat.strong_induction_on generalizing B with
  | _ n ih =>
    by_cases hB : B = []
    · exact hB ▸ nil
    · have hpos := List.length_pos_iff.mpr hB
      exact chunk B hB (ih _ (by rw [List.length_drop]; omega) _ rfl)

/-- The loop's recursion in the middle of the schedule: after `n` updates the next chunk is done under `K_n`. -/
theorem cloop_schedule_step (B : List Byte) (K : Word) (n : Nat) (hB : B ≠ []) :
    cloop B (scheduleKey K n) (scheduleShift n) =
      (xchunk (B.take 4) (scheduleKey K n) ++
          (cloop (B.drop 4) (scheduleKey K (n + 1)) (scheduleShift (n + 1))).1,
        (cloop (B.drop 4) (scheduleKey K (n + 1)) (scheduleShift (n + 1))).2) :=
  cloop_step B _ _ hB

theorem chunkCount_of_ne_nil {B : List Byte} (hB : B ≠ []) :
    chunkCount B.length = chunkCount (B.drop 4).length + 1 := by
  have hpos := List.length_pos_iff.mpr hB
  rw [chunkCount_eq, chunkCount_eq, List.length_drop]
  omega

/-- The loop makes one update per chunk. -/
theorem cloop_schedule_end (B : List Byte) (K : Word) (n : Nat) :
    (cloop B (scheduleKey K n) (scheduleShift n)).2 =
      (scheduleKey K (n + chunkCount B.length), scheduleShift (n + chunkCount B.length)) := by
  induction B using chunk_induction generalizing n with
  | nil => rfl
  | chunk B hB ih =>
    rw [cloop_schedule_step B K n hB, ih, chunkCount_of_ne_nil hB, Nat.add_assoc, Nat.add_comm 1]

/-- The bytes of the loop: offset `j` of the rest lies at offset `4n + j` of the whole buffer. -/
theorem cloop_schedule_getElem? (B : List Byte) (K : Word) (n j : Nat) :
    (cloop B (scheduleKey K n) (scheduleShift n)).1[j]? =
      B[j]?.map fun c => c ^^^ keystreamByte K (4 * n + j) := by
  induction B using chunk_induction generalizing n j with
  | nil => simp
  | chunk B hB ih =>
    rw [cloop_schedule_step B K n hB]
    by_cases hlen : j < B.length
    · by_cases hj : j < 4
      · rw [List.getElem?_append_left (by simp [hlen, hj]), xchunk_getElem?,
          List.getElem?_take_of_lt hj, keystreamByte_chunk K hj]
      · have htake : (xchunk (B.take 4) (scheduleKey K n)).length = 4 := by
          rw [xchunk_length, List.length_take]
          omega
        rw [List.getElem?_append_right (by omega), htake, ih, List.getElem?_drop,
          show 4 + (j - 4) = j by omega, show 4 * (n + 1) + (j - 4) = 4 * n + j by omega]
    · rw [List.getElem?_eq_none (by simp; omega), List.getElem?_eq_none (by omega), Option.map_none]

/-! ## The whole buffer (41_crypt.md R107, R117) -/

@[simp] theorem crypt_length (B : List Byte) (K : Word) : (crypt B K).1.length = B.length := cloop_length B K 0

theorem crypt_getElem? (B : List Byte) (K : Word) (j : Nat) :
    (crypt B K).1[j]? = B[j]?.map fun c => c ^^^ keystreamByte K j := by
  have h := cloop_schedule_getElem? B K 0 j
  rwa [Nat.mul_zero, Nat.zero_add] at h

/-- The final key and the final shift. -/
theorem crypt_end (B : List Byte) (K : Word) :
    (crypt B K).2 = (scheduleKey K (chunkCount B.length), scheduleShift (chunkCount B.length)) := by
  have h := cloop_schedule_end B K 0
  rwa [Nat.zero_add] at h

/-- Settles O32: byte by byte and at the end of the loop, from the loop in the middle of the schedule. -/
theorem cryptIsXorWithTheKeySchedule : Obligations.CryptIsXorWithTheKeySchedule := by
  intro B K
  have hend := crypt_end B K
  refine ⟨crypt_length B K, crypt_getElem? B K, ?_, ?_, ?_, chunkCount_eq _⟩
  · rw [hend]
  · rw [hend]
  · rw [hend, scheduleShift_toNat]

/-- The bytes come back: each meets the same byte of the keystream twice. -/
theorem crypt_crypt_bytes (B : List Byte) (K : Word) : (crypt (crypt B K).1 K).1 = B := by
  apply List.ext_getElem?
  intro j
  rw [crypt_getElem?, crypt_getElem?, Option.map_map]
  cases B[j]? with
  | none => rfl
  | some c => simp

/-- Settles O34: the bytes by `crypt_crypt_bytes`; the schedule depends on the key and the length alone. -/
theorem cryptIsAnInvolutionUnderAFixedKey : Obligations.CryptIsAnInvolutionUnderAFixedKey := by
  intro B K
  have hend := crypt_end (crypt B K).1 K
  rw [crypt_length] at hend
  exact Prod.ext (crypt_crypt_bytes B K) hend

/-- Settles O30: the period by the inverse of 5 modulo 32, the final shift of 63 bytes by `crypt_end`. -/
theorem shiftSequenceVisitsEveryValueOncePerPeriod : Obligations.ShiftSequenceVisitsEveryValueOncePerPeriod := by
  refine ⟨?_, scheduleShift_add_32, fun v => ?_, fun B K hB => ?_⟩
  · simp only [scheduleShift_toNat]
    decide
  · have hlt : (13 * v.toNat + 31) % 32 < 32 := Nat.mod_lt _ (by decide)
    exact ⟨(13 * v.toNat + 31) % 32, ⟨hlt, (scheduleShift_eq_iff_of_lt v hlt).mpr rfl⟩,
      fun n ⟨hn, hs⟩ => (scheduleShift_eq_iff_of_lt v hn).mp hs⟩
  · have hcount : chunkCount B.length = 16 := by rw [hB, chunkCount_eq]
    refine ⟨hcount, ?_⟩
    rw [crypt_end, hcount, scheduleShift_eq_iff]
    rfl

end Sys2Proof.Machine
end

section
/-! PROOFS. The sequencer of `CRYPT` (41_crypt.md section 5): its invariant at each `C_CHUNK`, its end, and what the command
leaves. -/

namespace Sys2Proof.Machine

/-! ## The invariant at each `C_CHUNK` (41_crypt.md R116) -/

/-- The number of bytes in the first `n` chunks of a buffer of `L` bytes (41_crypt.md R116). -/
def bytesDone (n L : Nat) : Nat := min (4 * n) L

/-- The block `c` of a `CRYPT` from `b`, at the `C_CHUNK` after `n` chunks (41_crypt.md R116). -/
structure AtChunk (b : Block) (n : Nat) (c : Block) : Prop where
  acc : c.acc = b.acc
  base : c.base = b.base
  len : c.len = b.len
  phase : c.phase = .cChunk
  ptr : c.ptr = b.base.toNat + bytesDone n b.len.toNat
  rem : c.rem = b.len.toNat - bytesDone n b.len.toNat
  key : c.key = scheduleKey b.key n
  shift : c.shift = scheduleShift n
  mem : ∀ a, c.mem.get a =
    if b.base.toNat ≤ a ∧ a < b.base.toNat + bytesDone n b.len.toNat then
      b.mem.get a ^^^ keystreamByte b.key (a - b.base.toNat)
    else b.mem.get a

variable {b c : Block} {n : Nat}

theorem atChunk_cryptStart (b : Block) : AtChunk b 0 (cryptStart b) where
  acc := rfl
  base := rfl
  len := rfl
  phase := rfl
  ptr := by simp [bytesDone]
  rem := by simp [bytesDone]
  key := rfl
  shift := rfl
  mem a := by rw [if_neg (by simp only [bytesDone]; omega), cryptStart_mem]

/-- One chunk takes the invariant from `n` to `n + 1`. -/
theorem atChunk_succ (hfits : b.base.toNat + b.len.toNat ≤ Config.bufBytes) (h : AtChunk b n c)
    (hn : 4 * n < b.len.toNat) : ∃ c', runSeq (min c.rem 4 + 3) c = .ok c' ∧ AtChunk b (n + 1) c' := by
  have hdone : bytesDone n b.len.toNat = 4 * n := Nat.min_eq_left hn.le
  have hnext : bytesDone (n + 1) b.len.toNat = 4 * n + min (b.len.toNat - 4 * n) 4 := by
    rw [bytesDone]
    omega
  have hptr : c.ptr = b.base.toNat + 4 * n := by rw [h.ptr, hdone]
  have hrem : c.rem = b.len.toNat - 4 * n := by rw [h.rem, hdone]
  obtain ⟨m, hrun, -, hget⟩ := runSeq_chunk c h.phase (by omega) (by omega)
  refine ⟨_, hrun, h.acc, h.base, h.len, h.phase, ?_, ?_, ?_, ?_, fun a => ?_⟩
  · rw [hnext, hptr, hrem, Nat.add_assoc]
  · rw [hnext, hrem, Nat.sub_sub]
  · rw [h.key, h.shift]
    rfl
  · rw [h.shift]
    rfl
  · rw [hget, h.mem, h.key, hptr, hrem, hdone, hnext]
    by_cases hnew : b.base.toNat + 4 * n ≤ a ∧ a < b.base.toNat + 4 * n + min (b.len.toNat - 4 * n) 4
    · have hoff : a - b.base.toNat = 4 * n + (a - (b.base.toNat + 4 * n)) := by omega
      rw [if_pos hnew, if_neg (by omega), if_pos (by omega), hoff, keystreamByte_chunk _ (by omega)]
    · rw [if_neg hnew]
      exact if_congr (by omega) rfl rfl

/-- The run from the start state to each `C_CHUNK` (41_crypt.md R116). -/
theorem runSeq_to_atChunk (hfits : b.base.toNat + b.len.toNat ≤ Config.bufBytes)
    (hn : n ≤ chunkCount b.len.toNat) :
    ∃ c, runSeq (bytesDone n b.len.toNat + 3 * n) (cryptStart b) = .ok c ∧ AtChunk b n c := by
  induction n with
  | zero => exact ⟨cryptStart b, by simp [bytesDone], atChunk_cryptStart b⟩
  | succ n ih =>
    have hlt : 4 * n < b.len.toNat := by
      rw [chunkCount_eq] at hn
      omega
    obtain ⟨c, hrun, hc⟩ := ih (by omega)
    obtain ⟨c', hchunk, hc'⟩ := atChunk_succ hfits hc hlt
    refine ⟨c', ?_, hc'⟩
    have hsteps : bytesDone (n + 1) b.len.toNat + 3 * (n + 1) =
        bytesDone n b.len.toNat + 3 * n + (min c.rem 4 + 3) := by
      rw [hc.rem]
      simp only [bytesDone]
      omega
    rw [hsteps, runSeq_trans _ hrun, hchunk]

/-- The window at a `C_CHUNK`: the chunks done, then the bytes still as they were. -/
theorem window_atChunk (h : AtChunk b n c) :
    window c = (crypt (window b) b.key).1.take (bytesDone n b.len.toNat) ++
      (window b).drop (bytesDone n b.len.toNat) := by
  have hdone : bytesDone n b.len.toNat ≤ b.len.toNat := Nat.min_le_right _ _
  have hlen : ((crypt (window b) b.key).1.take (bytesDone n b.len.toNat)).length = bytesDone n b.len.toNat := by
    rw [List.length_take, crypt_length, window_length, Nat.min_eq_left hdone]
  apply List.ext_getElem?
  intro j
  by_cases hj : j < bytesDone n b.len.toNat
  · have hlt : j < b.len.toNat := hj.trans_le hdone
    rw [List.getElem?_append_left (by omega), List.getElem?_take_of_lt hj, crypt_getElem?, window_getElem?,
      window_getElem?, h.len, h.base, if_pos hlt, if_pos hlt, h.mem, if_pos (by omega), Nat.add_sub_cancel_left,
      Option.map_some]
  · rw [List.getElem?_append_right (by omega), hlen, List.getElem?_drop, Nat.add_sub_cancel' (by omega),
      window_getElem?, window_getElem?, h.len, h.base, h.mem, if_neg (by omega : ¬ (_ ∧ _))]

/-! ## The end of `CRYPT` -/

theorem bytesDone_chunkCount (L : Nat) : bytesDone (chunkCount L) L = L := by
  rw [bytesDone, chunkCount_eq]
  omega

/-- The run of `CRYPT` (41_crypt.md R116): the last `C_CHUNK`, and the step from there to `IDLE`. -/
theorem runSeq_cryptStart (hfits : b.base.toNat + b.len.toNat ≤ Config.bufBytes) :
    ∃ c, AtChunk b (chunkCount b.len.toNat) c ∧
      runSeq (b.len.toNat + 3 * chunkCount b.len.toNat) (cryptStart b) = .ok c ∧
      runSeq (cryptSteps b.len.toNat) (cryptStart b) = .ok { c with phase := .idle } := by
  obtain ⟨c, hrun, hc⟩ := runSeq_to_atChunk hfits (le_refl _)
  have hrem : c.rem = 0 := by rw [hc.rem, bytesDone_chunkCount, Nat.sub_self]
  rw [bytesDone_chunkCount] at hrun
  refine ⟨c, hc, hrun, ?_⟩
  rw [cryptSteps, runSeq_trans _ hrun, runSeq_succ_of_ok 0 (seqStep_cChunk_end hc.phase hrem), runSeq_zero]

/-- In `IDLE` the sequencer stays where it is (10_state.md R21). -/
theorem runSeq_idle (n : Nat) (h : b.phase = .idle) : runSeq n b = .ok b := by
  induction n with
  | zero => rfl
  | succ n ih => rw [runSeq_succ_of_ok n (by rw [seqStep, h]), ih]

/-- A run that has reached `IDLE` ends there, so one that ends elsewhere has not been in `IDLE`. -/
theorem not_idle_of_runSeq {m : Nat} {b₁ b₂ : Block} (h₁ : runSeq m b = .ok b₁) (h₂ : runSeq n b = .ok b₂)
    (hmn : m ≤ n) (hend : b₂.phase ≠ .idle) : b₁.phase ≠ .idle := by
  intro hidle
  have hn : runSeq n b = .ok b₁ := by
    rw [← Nat.add_sub_cancel' hmn, runSeq_trans _ h₁, runSeq_idle _ hidle]
  rw [hn, Except.ok.injEq] at h₂
  exact hend (h₂ ▸ hidle)

theorem exec_crypt (s : State) :
    exec .crypt s = s.runCommand (cryptStart s.block) (cryptSteps s.block.len.toNat) := rfl

/-- Settles O38: the invariant by induction on the chunks, the end by `runSeq_cryptStart`, and no end before it because the
last `C_CHUNK` is not `IDLE`. -/
theorem cryptSequencerRefinesCrypt : Obligations.CryptSequencerRefinesCrypt := by
  intro b hfits
  obtain ⟨c, hc, hlast, hend⟩ := runSeq_cryptStart hfits
  refine ⟨fun n hn => ?_, ⟨_, hend, rfl, ?_⟩, fun m hm c' hm' => ?_⟩
  · obtain ⟨d, hrun, hd⟩ := runSeq_to_atChunk hfits hn
    exact ⟨d, hrun, hd.phase, hd.ptr, hd.rem, hd.key, hd.shift, window_atChunk hd⟩
  · rintro s rfl
    exact runCommand_of_fits _ _ _ hfits hend
  · exact not_idle_of_runSeq hm' hlast (Nat.le_of_lt_succ hm) (by simp [hc.phase])

/-! ## What the command leaves (41_crypt.md R111) -/

/-- The block `c` that an accepted `CRYPT` from `b` leaves, the hidden leftovers apart. -/
structure Crypted (b c : Block) : Prop where
  acc : c.acc = b.acc
  base : c.base = b.base
  len : c.len = b.len
  phase : c.phase = .idle
  key : c.key = (crypt (window b) b.key).2.1
  shift : c.shift = (crypt (window b) b.key).2.2
  window : window c = (crypt (window b) b.key).1
  outside : ∀ a, a < b.base.toNat ∨ b.base.toNat + b.len.toNat ≤ a → c.mem.get a = b.mem.get a

/-- The invariant at the last `C_CHUNK`, read at the end of the command. -/
theorem crypted_of_atChunk (h : AtChunk b (chunkCount b.len.toNat) c) : Crypted b { c with phase := .idle } where
  acc := h.acc
  base := h.base
  len := h.len
  phase := rfl
  key := by rw [crypt_end, window_length]; exact h.key
  shift := by rw [crypt_end, window_length]; exact h.shift
  window := by
    have hw := window_atChunk h
    rwa [bytesDone_chunkCount, List.take_of_length_le (by simp), List.drop_of_length_le (by simp),
      List.append_nil] at hw
  outside a ha := (h.mem a).trans (if_neg (by rw [bytesDone_chunkCount]; omega))

/-- If `CRYPT` answers a next state, it was refused, or it has transformed the window and answered `OK`. -/
theorem exec_crypt_next {s t : State} (h : exec .crypt s = .next t) :
    (¬ s.block.base.toNat + s.block.len.toNat ≤ Config.bufBytes ∧ t = s.refuse .eRange) ∨
    (s.block.base.toNat + s.block.len.toNat ≤ Config.bufBytes ∧ ∃ c, Crypted s.block c ∧
      t = { s with block := c, responses := s.responses ++ [⟨.ok, 0⟩] }) := by
  rw [exec_crypt] at h
  rcases runCommand_next h with hrefused | ⟨hfits, c, hrun, rfl⟩
  · exact .inl hrefused
  · obtain ⟨d, hd, -, hend⟩ := runSeq_cryptStart hfits
    rw [hend, Except.ok.injEq] at hrun
    exact .inr ⟨hfits, c, hrun ▸ crypted_of_atChunk hd, rfl⟩

/-! ## The empty buffer (41_crypt.md R109) -/

/-- Settles O33: with no byte to do, the first `C_CHUNK` is the last. -/
theorem emptyBufferIsUntouched : Obligations.EmptyBufferIsUntouched := by
  refine ⟨fun _ => rfl, fun s hlen hbase => ?_⟩
  have hzero : s.block.len.toNat = 0 := by rw [hlen]; rfl
  have hrun : runSeq (cryptSteps s.block.len.toNat) (cryptStart s.block) =
      .ok { cryptStart s.block with phase := .idle } := by
    rw [hzero]
    exact runSeq_succ_of_ok 0 (seqStep_cChunk_end rfl hzero)
  rw [exec_crypt, runCommand_of_fits _ _ _ (by omega) hrun, cryptStart, hzero]

end Sys2Proof.Machine
end

section
/-! PROOFS. The locality of the commands (41_crypt.md R122): what the host sees after a command is a function of what it
sees through the window before it. -/

namespace Sys2Proof.Machine

/-- What a command can show the host: the registers it writes, the bytes of the window, the responses. -/
structure View where
  acc : Word
  key : Word
  shift : ShiftAmt
  bytes : List Byte
  responses : List Response

def State.view (s : State) : View where
  acc := s.block.acc
  key := s.block.key
  shift := s.block.shift
  bytes := window s.block
  responses := s.responses

/-- `HASH` over the view of an accepted request (40_hash.md R85). -/
def View.hash (v : View) : View :=
  { v with acc := seedHash v.bytes, responses := v.responses ++ [⟨.ok, 0⟩] }

/-- `CRYPT` over the view of an accepted request (41_crypt.md R111). -/
def View.crypt (v : View) : View :=
  { v with
    bytes := (Machine.crypt v.bytes v.key).1
    key := (Machine.crypt v.bytes v.key).2.1
    shift := (Machine.crypt v.bytes v.key).2.2
    responses := v.responses ++ [⟨.ok, 0⟩] }

/-- A refused command over the view (60_exceptions.md R164). -/
def View.refused (v : View) : View := { v with responses := v.responses ++ [⟨.eRange, 0⟩] }

/-- The state `t` follows `s` by a command that acts on the view as `f` does: nothing outside the window changes, and the
view of `t` is that of `s` under `f`, or the refused one if the window does not fit. -/
structure ActsInWindow (f : View → View) (s t : State) : Prop where
  outside : ∀ a, a < s.block.base.toNat ∨ s.block.base.toNat + s.block.len.toNat ≤ a →
    t.block.mem.get a = s.block.mem.get a
  view : t.view = if windowFits s.block then f s.view else s.view.refused

variable {s t : State}

theorem actsInWindow_refused (f : View → View)
    (hfits : ¬ s.block.base.toNat + s.block.len.toNat ≤ Config.bufBytes) :
    ActsInWindow f s (s.refuse .eRange) where
  outside _ _ := rfl
  view := by rw [windowFits, if_neg (by simpa using hfits)]; rfl

theorem exec_hash_actsInWindow (h : exec .hash s = .next t) : ActsInWindow View.hash s t := by
  rcases runCommand_next h with ⟨hfits, rfl⟩ | ⟨hfits, c, hrun, rfl⟩
  · exact actsInWindow_refused _ hfits
  · rw [runSeq_hashStart hfits, Except.ok.injEq] at hrun
    subst hrun
    refine ⟨fun _ _ => rfl, ?_⟩
    rw [windowFits, if_pos (decide_eq_true hfits)]
    rfl

theorem exec_crypt_actsInWindow (h : exec .crypt s = .next t) : ActsInWindow View.crypt s t := by
  rcases exec_crypt_next h with ⟨hfits, rfl⟩ | ⟨hfits, c, hc, rfl⟩
  · exact actsInWindow_refused _ hfits
  · refine ⟨hc.outside, ?_⟩
    rw [windowFits, if_pos (decide_eq_true hfits)]
    simp only [State.view, View.crypt, hc.acc, hc.key, hc.shift, hc.window]

/-- Each command acts inside the window, by one function of the view. -/
theorem command_actsInWindow {i : Instr} (hi : i = .hash ∨ i = .crypt) :
    ∃ f, ∀ s t, exec i s = .next t → ActsInWindow f s t := by
  rcases hi with rfl | rfl
  · exact ⟨View.hash, fun _ _ => exec_hash_actsInWindow⟩
  · exact ⟨View.crypt, fun _ _ => exec_crypt_actsInWindow⟩

/-- Settles O41: two states with the same window have the same view, and the command is a function of it. -/
theorem commandsStayInsideTheWindow : Obligations.CommandsStayInsideTheWindow := by
  intro i s t hi h
  obtain ⟨f, hf⟩ := command_actsInWindow hi
  refine ⟨(hf s t h).outside, fun m t' hw h' => ?_⟩
  have hview : ({ s with block := { s.block with mem := m } } : State).view = s.view := by
    simp only [State.view, hw]
  have hfits : windowFits { s.block with mem := m } = windowFits s.block := rfl
  have hsame : t'.view = t.view := by
    rw [(hf _ _ h').view, (hf _ _ h).view, hview, hfits]
  simp only [State.view, View.mk.injEq] at hsame
  exact hsame

end Sys2Proof.Machine
end

section
/-! PROOFS. Refusals, the block's only exception (60_exceptions.md): the one semantic check of each transaction decides between
`OK` and its refusal code, and what a step does depends on the block and the waiting requests alone. -/

namespace Sys2Proof.Machine

open Sys2Proof.Safety

/-! ## The transactions out of range (60_exceptions.md R164 to R166) -/

theorem readOperand_eq_none (b : Block) {reg : Nat} (h : 5 ≤ reg) : readOperand b reg = none := by
  rw [← Option.not_isSome_iff_eq_none, readOperand_isSome]
  simp only [decide_eq_true_eq]
  omega

theorem readOperand_eq_some (b : Block) {reg : Nat} (h : reg ≤ 4) : ∃ v, readOperand b reg = some v := by
  rw [← Option.isSome_iff_exists, readOperand_isSome, decide_eq_true h]

theorem writeOperand_eq_none (b : Block) {reg : Nat} (v : Word) (h : 3 ≤ reg) : writeOperand b reg v = none := by
  rw [← Option.not_isSome_iff_eq_none, writeOperand_isSome]
  simp only [decide_eq_true_eq]
  omega

theorem writeOperand_eq_some (b : Block) {reg : Nat} (v : Word) (h : reg ≤ 2) :
    ∃ b', writeOperand b reg v = some b' := by
  rw [← Option.isSome_iff_exists, writeOperand_isSome, decide_eq_true h]

variable (s : State)

theorem exec_rd_refused {reg : Nat} (h : 5 ≤ reg) : exec (.rd reg) s = .next (s.refuse .eReg) := by
  rw [exec, execRd, readOperand_eq_none s.block h]

theorem exec_wr_refused {reg : Nat} (v : Word) (h : 3 ≤ reg) : exec (.wr reg v) s = .next (s.refuse .eReg) := by
  rw [exec, execWr, writeOperand_eq_none s.block v h]

theorem exec_mrd_refused {a : Nat} (h : Config.bufBytes ≤ a) : exec (.mrd a) s = .next (s.refuse .eAddr) := by
  rw [exec, execMrd_eq, if_neg (Nat.not_lt.mpr h)]

theorem exec_mwr_refused {a : Nat} (v : Byte) (h : Config.bufBytes ≤ a) :
    exec (.mwr a v) s = .next (s.refuse .eAddr) := by
  rw [exec, execMwr_eq, if_neg (Nat.not_lt.mpr h)]

/-- Each transaction is refused with its own code when its semantic check fails (60_exceptions.md R167). -/
theorem exec_refused (i : Instr) (h : ¬ Accepts s.block i) : exec i s = .next (s.refuse (refusalCode i)) := by
  cases i with
  | rd reg => exact exec_rd_refused s (Nat.lt_of_not_le h)
  | wr reg v => exact exec_wr_refused s v (Nat.lt_of_not_le h)
  | mrd a => exact exec_mrd_refused s (Nat.le_of_not_lt h)
  | mwr a v => exact exec_mwr_refused s v (Nat.le_of_not_lt h)
  | hash => exact runCommand_of_not_fits _ _ h
  | crypt => exact runCommand_of_not_fits _ _ h

variable {s}

/-- Settles O13: no such index holds a register that the host may read, or write. -/
theorem registerAccessIsRefusedByIndex : Obligations.RegisterAccessIsRefusedByIndex :=
  fun s _ v => ⟨exec_rd_refused s, exec_wr_refused s v⟩

/-- Settles O14: an address of `BUF_BYTES` or more fails the one check that both transactions make. -/
theorem addressBeyondTheMemoryIsRefused : Obligations.AddressBeyondTheMemoryIsRefused :=
  fun s _ v h => ⟨exec_mrd_refused s h, exec_mwr_refused s v h⟩

/-! ## The transactions in range (60_exceptions.md R168) -/

/-- From every state with the block `b`, whatever its queues hold, `o` leaves the block `b'`, takes no request and delivers
the one response `r`. -/
def AnswersFrom (b : Block) (o : State → Host.Outcome State Fault Refusal) (b' : Block) (r : Response) : Prop :=
  ∀ s : State, s.block = b → o s = .next { s with block := b', responses := s.responses ++ [r] }

/-- A transaction whose semantic check passes completes with the value it reads. -/
theorem exec_accepted {b : Block} {i : Instr} (h : Accepts b i) :
    ∃ b' v, valueRead b i = some v ∧ AnswersFrom b (exec i) b' ⟨.ok, v⟩ := by
  cases i with
  | rd reg =>
    obtain ⟨v, hv⟩ := readOperand_eq_some b h
    refine ⟨b, v, hv, ?_⟩
    rintro s rfl
    rw [exec, execRd, hv]
    rfl
  | wr reg v =>
    obtain ⟨b', hb'⟩ := writeOperand_eq_some b v h
    refine ⟨b', 0, rfl, ?_⟩
    rintro s rfl
    rw [exec, execWr, hb']
    rfl
  | mrd a =>
    refine ⟨b, _, valueRead_mrd b a, ?_⟩
    rintro s rfl
    exact (execMrd_eq a s).trans (if_pos h)
  | mwr a v =>
    refine ⟨{ b with mem := b.mem.set a v }, 0, rfl, ?_⟩
    rintro s rfl
    exact (execMwr_eq a v s).trans (if_pos h)
  | hash =>
    refine ⟨hashed b, 0, rfl, ?_⟩
    rintro s rfl
    exact runCommand_of_fits _ _ _ h (runSeq_hashStart h)
  | crypt =>
    obtain ⟨b', hrun⟩ := runSeq_cryptStart_ok h
    refine ⟨b', 0, rfl, ?_⟩
    rintro s rfl
    exact runCommand_of_fits _ _ _ h hrun

theorem exec_completes {i : Instr} (h : Accepts s.block i) :
    ∃ t v, valueRead s.block i = some v ∧ exec i s = .next t ∧ t.responses = s.responses ++ [⟨.ok, v⟩] := by
  obtain ⟨b', v, hv, hans⟩ := exec_accepted h
  exact ⟨_, v, hv, hans s rfl, rfl⟩

/-- A transaction that reads nothing answers a zero when it completes (30_encoding.md R62). -/
theorem exec_completes_zero {i : Instr} (h : Accepts s.block i) (hv : valueRead s.block i = some 0) :
    ∃ t, exec i s = .next t ∧ t.responses = s.responses ++ [⟨.ok, 0⟩] := by
  obtain ⟨t, v, hv', ht, hresp⟩ := exec_completes h
  obtain rfl : v = 0 := Option.some.inj (hv'.symm.trans hv)
  exact ⟨t, ht, hresp⟩

theorem refusalCode_ne_ok (i : Instr) : refusalCode i ≠ .ok := by cases i <;> simp [refusalCode]

/-- Settles O18: the two commands' semantic check is the range check, and neither command reads a value. -/
theorem windowBeyondTheMemoryIsRefused : Obligations.WindowBeyondTheMemoryIsRefused := fun s =>
  ⟨fun h => ⟨exec_refused s .hash (Nat.not_le.mpr h), exec_refused s .crypt (Nat.not_le.mpr h)⟩,
    fun h => ⟨exec_completes_zero (i := .hash) h rfl, exec_completes_zero (i := .crypt) h rfl, fun j hj => by omega⟩⟩

/-- Settles O21: the check decides between `exec_completes` and `exec_refused`, and no refusal code is `OK`. -/
theorem acceptedTransactionCompletesWithOk : Obligations.AcceptedTransactionCompletesWithOk := by
  intro i s
  refine ⟨fun h => ?_, fun t r ht hr => ?_⟩
  · obtain ⟨t, v, -, ht, hresp⟩ := exec_completes h
    exact ⟨t, v, ht, hresp⟩
  · by_cases h : Accepts s.block i
    · obtain ⟨t', v, -, ht', hresp⟩ := exec_completes h
      obtain rfl : t = t' := by simpa [ht] using ht'
      obtain rfl : r = ⟨.ok, v⟩ := by simpa [hr] using hresp
      exact iff_of_true rfl h
    · obtain rfl : t = s.refuse (refusalCode i) := by simpa [ht] using exec_refused s i h
      obtain rfl : r = ⟨refusalCode i, 0⟩ := by simpa using hr.symm
      exact iff_of_false (refusalCode_ne_ok i) h

/-! ## The order of the checks (60_exceptions.md R167) -/

/-- Settles O19: the decoder's two checks by what the decoder answers, the semantic check by what the transaction does. -/
theorem checksAreMadeInTheStatedOrder : Obligations.ChecksAreMadeInTheStatedOrder := by
  intro s q qs h
  refine ⟨fun hnone => step_of_refused h (decode_of_no_code hnone), fun op hop => ?_⟩
  have hcode : opField q = op.code := ofCode_eq_some.mp hop
  refine ⟨fun hz => step_eField op h hcode (by simp [hz]), fun hz => ?_⟩
  rw [step_of_instr h (decode_of_reserved_zero hcode hz)]
  refine ⟨exec_refused { s with requests := qs } _, fun hacc => ?_⟩
  obtain ⟨t, v, -, ht, hresp⟩ := exec_completes (s := { s with requests := qs }) hacc
  exact ⟨t, v, ht, hresp⟩

/-! ## A refused transaction changes nothing and latches nothing (60_exceptions.md R160) -/

/-- What a transaction does depends on the block alone. -/
theorem exec_answersFrom (b : Block) (i : Instr) : ∃ b' r, AnswersFrom b (exec i) b' r := by
  by_cases h : Accepts b i
  · obtain ⟨b', v, -, hans⟩ := exec_accepted h
    exact ⟨b', ⟨.ok, v⟩, hans⟩
  · refine ⟨b, ⟨refusalCode i, 0⟩, ?_⟩
    rintro s rfl
    exact exec_refused s i h

/-- What a step does depends on the block and the waiting requests alone, not on the responses delivered before: this is why a
refusal latches nothing. -/
theorem step_of_block_and_requests (b : Block) (qs : List Request) :
    ∃ b' qs' l, ∀ s : State, s.block = b → s.requests = qs → step s = .next ⟨b', qs', s.responses ++ l⟩ := by
  cases qs with
  | nil =>
    refine ⟨b, [], [], ?_⟩
    rintro s rfl hreq
    simp [step, takeRequest_nil hreq, ← hreq]
  | cons q qs =>
    cases hd : decode q with
    | refused c =>
      refine ⟨b, qs, [⟨statusOfDecode c, 0⟩], ?_⟩
      rintro s rfl hreq
      exact step_of_refused hreq hd
    | instr i =>
      obtain ⟨b', r, hans⟩ := exec_answersFrom b i
      refine ⟨b', qs, [r], ?_⟩
      rintro s rfl hreq
      rw [step_of_instr hreq hd]
      exact hans _ rfl

/-- With a request waiting, a step answers `OK`, or it is refused with the block unchanged and a zero. -/
theorem step_completes_or_refuses {q : Request} {qs : List Request} (h : s.requests = q :: qs) :
    (∃ b' v, step s = .next ⟨b', qs, s.responses ++ [⟨.ok, v⟩]⟩) ∨
      ∃ c, step s = .next ⟨s.block, qs, s.responses ++ [⟨c, 0⟩]⟩ := by
  cases hd : decode q with
  | refused c => exact .inr ⟨statusOfDecode c, step_of_refused h hd⟩
  | instr i =>
    rw [step_of_instr h hd]
    by_cases hacc : Accepts s.block i
    · obtain ⟨b', v, -, hans⟩ := exec_accepted hacc
      exact .inl ⟨b', v, hans { s with requests := qs } rfl⟩
    · exact .inr ⟨refusalCode i, exec_refused { s with requests := qs } i hacc⟩

/-- Settles O20: after a refusal the block and the waiting requests are those of the state in which the request was never
issued, and `step_of_block_and_requests` gives the next step from both. -/
theorem refusedTransactionChangesNothing : Obligations.RefusedTransactionChangesNothing := by
  intro s t q qs r h ht hr hne
  rcases step_completes_or_refuses h with ⟨b', v, hstep⟩ | ⟨c, hstep⟩
  · obtain rfl : t = ⟨b', qs, s.responses ++ [⟨.ok, v⟩]⟩ := by simpa [ht] using hstep
    obtain rfl : r = ⟨.ok, v⟩ := by simpa using hr.symm
    exact absurd rfl hne
  · obtain rfl : t = ⟨s.block, qs, s.responses ++ [⟨c, 0⟩]⟩ := by simpa [ht] using hstep
    obtain rfl : r = ⟨c, 0⟩ := by simpa using hr.symm
    refine ⟨rfl, rfl, rfl, fun u hu => ?_⟩
    obtain ⟨b', qs', l, hnext⟩ := step_of_block_and_requests s.block qs
    obtain rfl : u = ⟨b', qs', s.responses ++ l⟩ := by simpa [hu] using hnext { s with requests := qs } rfl rfl
    exact ⟨_, l, hnext _ rfl rfl, rfl, rfl, rfl, rfl⟩

end Sys2Proof.Machine
end

section
/-! PROOFS. The encoder against the decoder (30_encoding.md sections 2, 4 and 6): both directions of the round trip, and the
rows of the table against each other. -/

namespace Sys2Proof

/-! ## Decoding what was encoded (30_encoding.md section 6) -/

/-- The request word of a transaction holds its operation code, and zero where 30_encoding.md R63 asks for zero. -/
theorem encode_fields (i : Instr) : Laws.EncodedFields.Statement i := by
  cases i with
  | rd reg => exact Laws.EncodedFields.rd reg
  | wr reg v => exact Laws.EncodedFields.wr reg v
  | mrd a => exact Laws.EncodedFields.mrd a
  | mwr a v => exact Laws.EncodedFields.mwr a v
  | hash => exact Laws.EncodedFields.hash
  | crypt => exact Laws.EncodedFields.crypt

/-- The operands of a well-formed transaction come back out of their fields whole (30_encoding.md R65). -/
theorem instrOf_encode {i : Instr} (h : i.WellFormed) : instrOf (Laws.EncodedFields.opOf i) (encode i) = i := by
  cases i with
  | rd reg =>
    have hreg : reg < 2 ^ 4 := of_decide_eq_true h
    simpa [Laws.EncodedFields.opOf, instrOf, encode] using hreg
  | wr reg v =>
    have hreg : reg < 2 ^ 4 := of_decide_eq_true h
    simpa [Laws.EncodedFields.opOf, instrOf, encode] using hreg
  | mrd a =>
    have ha : a < 2 ^ 32 := of_decide_eq_true h
    simpa [Laws.EncodedFields.opOf, instrOf, encode] using ha
  | mwr a v =>
    have ha : a < 2 ^ 32 := of_decide_eq_true h
    simpa [Laws.EncodedFields.opOf, instrOf, encode] using ha
  | hash => rfl
  | crypt => rfl

theorem decode_encode {i : Instr} (h : i.WellFormed) : decode (encode i) = .instr i := by
  obtain ⟨hop, hz⟩ := encode_fields i
  rw [decode_of_reserved_zero hop hz, instrOf_encode h]

/-- Settles O1: the encoded word has the operation's code and zero in its must-be-zero fields, so it is accepted, and the
operands fit their fields. -/
theorem decodeOfEncodeIsTheInstruction : Obligations.DecodeOfEncodeIsTheInstruction :=
  fun _ h => decode_encode h

/-- Settles O5: each word is the encoding of a well-formed transaction. -/
theorem specifiedRequestWordsDecode : Obligations.SpecifiedRequestWordsDecode :=
  ⟨decode_encode (i := .rd 3) rfl, decode_encode (i := .wr 2 0x12345678) rfl, decode_encode (i := .mrd 4) rfl,
    decode_encode (i := .mwr 0 0x61) rfl, decode_encode (i := .hash) rfl, decode_encode (i := .crypt) rfl⟩

/-! ## Encoding what was decoded (30_encoding.md section 4, R67) -/

/-- An index or an address read from its field fits the field. -/
theorem instrOf_wellFormed (o : Op) (q : Request) : (instrOf o q).WellFormed := by
  cases o with
  | rd => exact decide_eq_true (regField q).isLt
  | wr => exact decide_eq_true (regField q).isLt
  | mrd => exact decide_eq_true (dataField q).isLt
  | mwr => exact decide_eq_true (dataField q).isLt
  | hash => rfl
  | crypt => rfl

/-- An accepted word is the word of its operands: every other field is its operation's code or zero. -/
theorem encode_instrOf {o : Op} {q : Request} (hop : opField q = o.code) (hz : reservedFieldsZero o q = true) :
    encode (instrOf o q) = q := by
  rw [request_eq_iff, hop]
  cases o with
  | rd =>
    obtain ⟨hrsv, hbyte, hdata⟩ := reservedFieldsZero_rd.mp hz
    simp [instrOf, encode, Op.code, hrsv, hbyte, hdata]
  | wr =>
    obtain ⟨hrsv, hbyte⟩ := reservedFieldsZero_wr.mp hz
    simp [instrOf, encode, Op.code, hrsv, hbyte]
  | mrd =>
    obtain ⟨hreg, hrsv, hbyte⟩ := reservedFieldsZero_mrd.mp hz
    simp [instrOf, encode, Op.code, hreg, hrsv, hbyte]
  | mwr =>
    obtain ⟨hreg, hrsv⟩ := reservedFieldsZero_mwr.mp hz
    simp [instrOf, encode, Op.code, hreg, hrsv]
  | hash =>
    obtain ⟨hreg, hrsv, hbyte, hdata⟩ := reservedFieldsZero_hash.mp hz
    simp [instrOf, encode, Op.code, hreg, hrsv, hbyte, hdata]
  | crypt =>
    obtain ⟨hreg, hrsv, hbyte, hdata⟩ := reservedFieldsZero_crypt.mp hz
    simp [instrOf, encode, Op.code, hreg, hrsv, hbyte, hdata]

/-- Settles O2: an accepted word has an operation's code and zero in that operation's must-be-zero fields. -/
theorem acceptedWordIsTheEncodingOfItsInstruction : Obligations.AcceptedWordIsTheEncodingOfItsInstruction := by
  intro q i h
  obtain ⟨o, hop, hz⟩ := decode_accepts_iff.mp ⟨i, h⟩
  obtain rfl : instrOf o q = i := by simpa [decode_of_reserved_zero hop hz] using h
  exact ⟨encode_instrOf hop hz, instrOf_wellFormed o q⟩

/-! ## The rows against each other (30_encoding.md section 2) -/

/-- The table has one row for each operation. -/
theorem row_eq_of_op_eq : ∀ r₁ ∈ opcodeTable, ∀ r₂ ∈ opcodeTable, r₁.op = r₂.op → r₁ = r₂ := by decide

/-- Settles O4: a row selects only words of its operation's code, and no two operations share one. -/
theorem opcodeTableRowsAreDisjoint : Obligations.OpcodeTableRowsAreDisjoint := by
  intro q r₁ hr₁ r₂ hr₂ hsel₁ hsel₂
  obtain ⟨hop₁, -⟩ := (row_selects_iff hr₁ q).mp hsel₁
  obtain ⟨hop₂, -⟩ := (row_selects_iff hr₂ q).mp hsel₂
  exact row_eq_of_op_eq r₁ hr₁ r₂ hr₂ (Op.code_injective (hop₁.symm.trans hop₂))

end Sys2Proof
end

section
/-! PROOFS. The word primitives bit by bit (41_crypt.md R123), and the transform against its keystream (R119). -/

namespace Sys2Proof.Machine

/-! ## The word primitives (00_scope.md R7) -/

/-- At `s = 0` the word shifted by 32 is zero, so the case of its own in `rotl32` is the rotation too. -/
theorem rotl32_eq_rotateLeft (k : Word) (s : ShiftAmt) : rotl32 k s = k.rotateLeft s.toNat := by
  have hs : s.toNat % 32 = s.toNat := Nat.mod_eq_of_lt s.isLt
  rw [rotl32, BitVec.rotateLeft, BitVec.rotateLeftAux, hs]
  split
  · next h =>
    have hshift : k >>> 32 = 0 := BitVec.ushiftRight_eq_zero (le_refl 32)
    simp [h, hshift]
  · rfl

/-- A rotation moves every bit, and loses none. -/
theorem rotl32_getLsbD (k : Word) (s : ShiftAmt) {i : Nat} (hi : i < 32) :
    (rotl32 k s).getLsbD ((i + s.toNat) % 32) = k.getLsbD i := by
  have hs := s.isLt
  rw [rotl32_eq_rotateLeft, BitVec.getLsbD_rotateLeft, Nat.mod_eq_of_lt hs]
  by_cases hwrap : i + s.toNat < 32
  · rw [Nat.mod_eq_of_lt hwrap]
    simp [hwrap]
  · have hmod : (i + s.toNat) % 32 = i + s.toNat - 32 := by omega
    have hlow : i + s.toNat - 32 < s.toNat := by omega
    rw [hmod, decide_eq_true hlow, cond_true, show 32 - s.toNat + (i + s.toNat - 32) = i by omega]

theorem bit32_getLsbD (s : ShiftAmt) (i : Nat) : (bit32 s).getLsbD i = decide (i = s.toNat) := by
  have hs := s.isLt
  have hpow : bit32 s = BitVec.twoPow 32 s.toNat := rfl
  rw [hpow, BitVec.getLsbD_twoPow, decide_eq_true hs, Bool.true_and]
  exact decide_eq_decide.mpr eq_comm

theorem lowByte_getLsbD (k : Word) (i : Nat) : (lowByte k).getLsbD i = (decide (i < 8) && k.getLsbD i) :=
  BitVec.getLsbD_setWidth 8 k i

/-- Settles O28: each primitive by the lemma that says its bits, or its value as a number. -/
theorem wordPrimitivesActBitByBit : Obligations.WordPrimitivesActBitByBit := fun k s =>
  ⟨fun _ hi => rotl32_getLsbD k s hi, rotl32_zero k, bit32_getLsbD s,
    fun n _ => ⟨shr32_toNat k n, shl32_toNat k n⟩, nextShift_toNat s, lowByte_getLsbD k⟩

/-! ## The keystream, and a part of the buffer from its start (41_crypt.md section 6) -/

/-- The transform of zero bytes is the keystream itself. -/
theorem crypt_zeros_getElem? (K : Word) (n j : Nat) :
    (crypt (List.replicate n 0) K).1[j]? = if j < n then some (keystreamByte K j) else none := by
  rw [crypt_getElem?, List.getElem?_replicate]
  split
  · simp
  · rfl

theorem crypt_eq_zipWith_keystream (B : List Byte) (K : Word) :
    (crypt B K).1 = List.zipWith (· ^^^ ·) B (crypt (List.replicate B.length 0) K).1 := by
  apply List.ext_getElem?
  intro j
  rw [List.getElem?_zipWith, crypt_zeros_getElem?, crypt_getElem?]
  by_cases hj : j < B.length
  · simp [hj]
  · simp [hj]

/-- No output byte depends on a later input byte. -/
theorem crypt_take (B : List Byte) (K : Word) (L : Nat) : (crypt (B.take L) K).1 = (crypt B K).1.take L := by
  apply List.ext_getElem?
  intro j
  rw [crypt_getElem?]
  by_cases hj : j < L
  · rw [List.getElem?_take_of_lt hj, List.getElem?_take_of_lt hj, crypt_getElem?]
  · have hL : L ≤ j := Nat.le_of_not_lt hj
    rw [List.getElem?_take_eq_none hL, List.getElem?_take_eq_none hL, Option.map_none]

/-- Settles O35: both laws byte by byte, from the closed form of the transform. -/
theorem cryptXorsTheKeystreamAndKeepsPrefixes : Obligations.CryptXorsTheKeystreamAndKeepsPrefixes :=
  fun B K => ⟨crypt_eq_zipWith_keystream B K, fun L _ => crypt_take B K L⟩

end Sys2Proof.Machine
end

section
/-! PROOFS. Steps and accesses: what a step does with the next request, that it always answers (70_reset_and_hazards.md
section 3), and what each of the four access transactions answers when it is accepted (42_host_access.md). -/

namespace Sys2Proof.Machine

open Sys2Proof.Safety

/-! ## Steps -/

/-- Settles O6: the three answers of the decoder. -/
theorem stepPerformsTheDecodedRequest : Obligations.StepPerformsTheDecodedRequest :=
  fun _ _ _ h => ⟨fun _ hd => step_of_instr h hd, fun hd => step_of_refused h hd, fun hd => step_of_refused h hd⟩

theorem step_of_no_request {s : State} (h : s.requests = []) : step s = .next s := by
  rw [step, takeRequest_nil h]

/-- Settles O7: with no request there is none to take. -/
theorem stepWithoutRequestKeepsTheState : Obligations.StepWithoutRequestKeepsTheState :=
  fun _ => step_of_no_request

/-- Settles O22: what a step answers, it answers as a next state. -/
theorem noStepStops : Obligations.NoStepStops := by
  intro s
  obtain ⟨_, _, _, hstep⟩ := step_of_block_and_requests s.block s.requests
  exact ⟨_, hstep s rfl rfl⟩

theorem run_succ_of_next {s t : State} (n : Nat) (h : step s = .next t) : core.run (n + 1) s = core.run n t := by
  have hcore : core.step s = .next t := h
  simp only [Host.Core.run, hcore]

/-- A run of as many steps as requests wait takes each and answers each. -/
theorem run_answers_all (qs : List Request) (s : State) (h : s.requests = qs) :
    ∃ t : State, core.run qs.length s = .next t ∧ t.requests = [] ∧
      t.responses.length = s.responses.length + qs.length := by
  induction qs generalizing s with
  | nil => exact ⟨s, rfl, h, rfl⟩
  | cons q qs ih =>
    obtain ⟨u, r, hstep, hreq, hresp, -⟩ := eachRequestGetsOneResponseOfTheStatedForm s q qs h
    obtain ⟨t, hrun, hnone, hcount⟩ := ih u hreq
    refine ⟨t, ?_, hnone, ?_⟩
    · rw [List.length_cons, run_succ_of_next _ hstep, hrun]
    · rw [hcount, hresp, List.length_append, List.length_singleton, List.length_cons]
      omega

/-- Settles O23: by induction on the waiting requests. -/
theorem everyFiniteProgramReachesItsEnd : Obligations.EveryFiniteProgramReachesItsEnd :=
  fun s => run_answers_all s.requests s rfl

/-! ## The accepted accesses -/

variable {s t : State} {reg addr : Nat}

theorem exec_rd_of_some {v : Word} (h : readOperand s.block reg = some v) :
    exec (.rd reg) s = .next { s with responses := s.responses ++ [⟨.ok, v⟩] } := by
  rw [exec, execRd, h]
  exact complete_ok s s.block v

theorem exec_wr_of_some {v : Word} {b : Block} (h : writeOperand s.block reg v = some b) :
    exec (.wr reg v) s = .next { s with block := b, responses := s.responses ++ [⟨.ok, 0⟩] } := by
  rw [exec, execWr, h]
  exact complete_ok s b 0

theorem exec_mrd_of_lt (h : addr < Config.bufBytes) :
    exec (.mrd addr) s =
      .next { s with responses := s.responses ++ [⟨.ok, zextByte (s.block.mem.get addr)⟩] } := by
  rw [exec, execMrd_eq, if_pos h, State.respond]

theorem exec_mwr_of_lt (v : Byte) (h : addr < Config.bufBytes) :
    exec (.mwr addr v) s =
      .next { s with block := { s.block with mem := s.block.mem.set addr v },
                     responses := s.responses ++ [⟨.ok, 0⟩] } := by
  rw [exec, execMwr_eq, if_pos h]

/-- Settles O9: each index by the register it holds. -/
theorem rdCompletesWithTheRegister : Obligations.RdCompletesWithTheRegister := fun _ =>
  ⟨exec_rd_of_some rfl, exec_rd_of_some rfl, exec_rd_of_some rfl, exec_rd_of_some rfl, exec_rd_of_some rfl⟩

/-- Settles O10: each index by the register it holds. -/
theorem wrCompletesAndWritesOneRegister : Obligations.WrCompletesAndWritesOneRegister := fun _ _ =>
  ⟨exec_wr_of_some rfl, exec_wr_of_some rfl, exec_wr_of_some rfl⟩

/-- Settles O11: the address check passes. -/
theorem mrdCompletesWithTheByte : Obligations.MrdCompletesWithTheByte := fun _ _ h => exec_mrd_of_lt h

/-- Settles O12: the memory is the one after one `Memory.set`, which sets the byte it names and no other. -/
theorem mwrCompletesAndWritesOneByte : Obligations.MwrCompletesAndWritesOneByte := fun s addr v h =>
  ⟨_, exec_mwr_of_lt v h, rfl, get_set_self s.block.mem addr v, fun _ ha => get_set_of_ne s.block.mem v ha⟩

/-! ## Read after write (10_state.md section 3, 20_memory.md section 7) -/

theorem readOperand_of_writeOperand {b b' : Block} {v : Word} (h : writeOperand b reg v = some b') :
    readOperand b' reg = some v := by
  rcases writeOperand_cases h with ⟨rfl, rfl⟩ | ⟨rfl, rfl⟩ | ⟨rfl, rfl⟩
  · rfl
  · rfl
  · rfl

theorem exec_mrd_after_mwr {v : Byte} (ha : addr < Config.bufBytes) (h : exec (.mwr addr v) s = .next t) :
    exec (.mrd addr) t = .next { t with responses := t.responses ++ [⟨.ok, zextByte v⟩] } := by
  rw [exec_mwr_of_lt v ha, Host.Outcome.next.injEq] at h
  have hget : t.block.mem.get addr = v := by rw [← h]; exact get_set_self s.block.mem addr v
  rw [exec_mrd_of_lt ha, hget]

theorem exec_rd_after_wr {v : Word} (hreg : reg ≤ 2) (h : exec (.wr reg v) s = .next t) :
    exec (.rd reg) t = .next { t with responses := t.responses ++ [⟨.ok, v⟩] } := by
  obtain ⟨b, hb⟩ := writeOperand_eq_some s.block v hreg
  rw [exec_wr_of_some hb, Host.Outcome.next.injEq] at h
  have hblock : t.block = b := by rw [← h]
  exact exec_rd_of_some (hblock ▸ readOperand_of_writeOperand hb)

/-- Settles O15: the byte and the register separately. -/
theorem writtenValuesAreReadBack : Obligations.WrittenValuesAreReadBack := fun _ _ =>
  ⟨fun _ _ => exec_mrd_after_mwr, fun _ _ => exec_rd_after_wr⟩

/-! ## Reset (10_state.md section 7) -/

/-- Settles O49: the values as `Block.reset` gives them. -/
theorem resetLeavesTheStatedValues : Obligations.ResetLeavesTheStatedValues :=
  ⟨rfl, rfl, rfl, rfl, rfl, rfl⟩

/-- Settles O48: the counters are zero, and no byte is listed. -/
theorem resetStateMeetsTheBlockInvariant : Obligations.ResetStateMeetsTheBlockInvariant where
  idle := rfl
  ptr_le := Nat.zero_le _
  rem_le := Nat.zero_le _
  clen_le := Nat.zero_le _
  idx_le := Nat.zero_le _
  mem_wf := reset_mem_wf

end Sys2Proof.Machine
end

section
/-! PROOFS. The two commands over a window that fits (40_hash.md section 2, 41_crypt.md section 4): what they answer, the
hidden leftovers of `CRYPT` (10_state.md section 4), and sequences of commands (42_host_access.md section 3,
70_reset_and_hazards.md section 3). -/

namespace Sys2Proof.Machine

variable {s t : State} {b c : Block}

/-! ## The accepted commands -/

theorem exec_hash_of_fits (h : s.block.base.toNat + s.block.len.toNat ≤ Config.bufBytes) :
    exec .hash s = .next { s with block := hashed s.block, responses := s.responses ++ [⟨.ok, 0⟩] } :=
  runCommand_of_fits _ _ _ h (runSeq_hashStart h)

theorem exec_crypt_of_fits (h : s.block.base.toNat + s.block.len.toNat ≤ Config.bufBytes) :
    ∃ c, Crypted s.block c ∧
      exec .crypt s = .next { s with block := c, responses := s.responses ++ [⟨.ok, 0⟩] } := by
  obtain ⟨d, hd, -, hend⟩ := runSeq_cryptStart h
  exact ⟨_, crypted_of_atChunk hd, runCommand_of_fits _ _ _ h hend⟩

/-- If `CRYPT` over a window that fits answers a next state, its block is the transformed one. -/
theorem crypted_of_exec (hfits : s.block.base.toNat + s.block.len.toNat ≤ Config.bufBytes)
    (h : exec .crypt s = .next t) : Crypted s.block t.block := by
  obtain ⟨c, hc, hexec⟩ := exec_crypt_of_fits hfits
  rw [h, Host.Outcome.next.injEq] at hexec
  exact hexec ▸ hc

/-- Settles O26: the block is the hashed one. -/
theorem hashCompletesWithTheSeedOfTheWindow : Obligations.HashCompletesWithTheSeedOfTheWindow :=
  fun _ => exec_hash_of_fits

/-- Settles O36: the block is the transformed one, and the host's queues are those of an accepted transaction. -/
theorem cryptCompletesWithTheWindowTransformed : Obligations.CryptCompletesWithTheWindowTransformed := by
  intro s hfits
  obtain ⟨c, hc, hexec⟩ := exec_crypt_of_fits hfits
  exact ⟨_, hexec, hc.window, hc.key, hc.shift, hc.outside, hc.acc, hc.base, hc.len, hc.phase, rfl, rfl⟩

/-! ## The hidden leftovers of `CRYPT` (10_state.md section 4) -/

/-- No byte of a key is left after four. -/
theorem shr32_32 (k : Word) : shr32 k 32 = 0 := BitVec.ushiftRight_eq_zero (le_refl 32)

/-- The last chunk of `CRYPT`, of one to four bytes, and the step from there to `IDLE`. -/
theorem runSeq_last_chunk (b : Block) (hp : b.phase = .cChunk) (hpos : b.rem ≠ 0) (hle : b.rem ≤ 4)
    (ha : b.ptr + b.rem ≤ Config.bufBytes) :
    ∃ m : Memory, runSeq (b.rem + 3 + 1) b = .ok { b with
      mem := m, ptr := b.ptr + b.rem, rem := 0, clen := b.rem, idx := b.rem, ckey := shr32 b.key (8 * b.rem),
      shift := nextShift b.shift, key := nextKey b.key (nextShift b.shift), phase := .idle } := by
  obtain ⟨m, hrun, -, -⟩ := runSeq_chunk b hp hpos ha
  rw [Nat.min_eq_left hle, Nat.sub_self] at hrun
  refine ⟨m, ?_⟩
  rw [runSeq_trans 1 hrun]
  exact runSeq_succ_of_ok 0 (seqStep_cChunk_end hp rfl)

/-- The hidden leftovers in the block `c` after a `CRYPT` of at least one byte from `b`: what its last chunk left. -/
structure CryptLeftovers (b c : Block) : Prop where
  ptr : c.ptr = b.base.toNat + b.len.toNat
  rem : c.rem = 0
  clen : c.clen = b.len.toNat - 4 * (chunkCount b.len.toNat - 1)
  idx : c.idx = c.clen
  ckey : c.ckey = shr32 (scheduleKey b.key (chunkCount b.len.toNat - 1)) (8 * c.clen)

theorem cryptLeftovers_of_runSeq (hfits : b.base.toNat + b.len.toNat ≤ Config.bufBytes) (hL : 1 ≤ b.len.toNat)
    (hrun : runSeq (cryptSteps b.len.toNat) (cryptStart b) = .ok c) : CryptLeftovers b c := by
  have hcount := chunkCount_eq b.len.toNat
  have hdone : bytesDone (chunkCount b.len.toNat - 1) b.len.toNat = 4 * (chunkCount b.len.toNat - 1) :=
    Nat.min_eq_left (by omega)
  obtain ⟨d, hbefore, hd⟩ := runSeq_to_atChunk hfits (Nat.sub_le (chunkCount b.len.toNat) 1)
  have hptr := hd.ptr
  have hrem := hd.rem
  rw [hdone] at hbefore hptr hrem
  obtain ⟨m, hlast⟩ := runSeq_last_chunk d hd.phase (by omega) (by omega) (by omega)
  have hsteps : cryptSteps b.len.toNat =
      4 * (chunkCount b.len.toNat - 1) + 3 * (chunkCount b.len.toNat - 1) + (d.rem + 3 + 1) := by
    rw [cryptSteps]
    omega
  rw [hsteps, runSeq_trans _ hbefore, hlast, Except.ok.injEq] at hrun
  subst hrun
  refine ⟨?_, rfl, hrem, rfl, ?_⟩
  · dsimp only
    omega
  · rw [← hd.key]

/-- Settles O37: the last chunk from the last `C_CHUNK` but one; a chunk of four bytes leaves nothing of its key. -/
theorem cryptLeavesTheStatedHiddenValues : Obligations.CryptLeavesTheStatedHiddenValues := by
  intro s t hfits hL h
  rw [exec_crypt] at h
  rcases runCommand_next h with ⟨hnot, -⟩ | ⟨-, c, hrun, rfl⟩
  · exact absurd hfits hnot
  · have hc := cryptLeftovers_of_runSeq hfits hL hrun
    refine ⟨hc.ptr, hc.rem, hc.clen, hc.idx, hc.ckey.trans ?_⟩
    dsimp only
    split
    · rfl
    · next hfull =>
      have hclen : c.clen = 4 := by
        have := hc.clen
        rw [chunkCount_eq] at this
        omega
      rw [hclen, shr32_32]

/-! ## Windows with equal bytes (20_memory.md section 3) -/

/-- Settles O42: both commands are functions of the window's bytes, and `CRYPT` of the key. -/
theorem windowPositionDoesNotMatter : Obligations.WindowPositionDoesNotMatter := by
  intro s₁ s₂ hfits₁ hfits₂ hw
  refine ⟨⟨_, _, exec_hash_of_fits hfits₁, exec_hash_of_fits hfits₂, ?_⟩, fun hkey => ?_⟩
  · simp only [hashed, hw]
  · obtain ⟨c₁, hc₁, hexec₁⟩ := exec_crypt_of_fits hfits₁
    obtain ⟨c₂, hc₂, hexec₂⟩ := exec_crypt_of_fits hfits₂
    refine ⟨_, _, hexec₁, hexec₂, ?_, ?_, ?_⟩
    · dsimp only
      rw [hc₁.window, hc₂.window, hw, hkey]
    · dsimp only
      rw [hc₁.key, hc₂.key, hw, hkey]
    · dsimp only
      rw [hc₁.shift, hc₂.shift, hw, hkey]

/-! ## `CRYPT` twice (70_reset_and_hazards.md section 3) -/

/-- The final key depends on the initial key and the length alone (41_crypt.md R107). -/
theorem crypted_key_eq (h : Crypted b c) : c.key = scheduleKey b.key (chunkCount b.len.toNat) := by
  rw [h.key, crypt_end, window_length]

theorem crypted_shift_eq (h : Crypted b c) : c.shift = scheduleShift (chunkCount b.len.toNat) := by
  rw [h.shift, crypt_end, window_length]

/-- Blocks with the same window of the same bytes read alike inside it. -/
theorem get_eq_of_window_eq (hbase : c.base = b.base) (hlen : c.len = b.len) (hw : window c = window b) {a : Nat}
    (hlo : b.base.toNat ≤ a) (hhi : a < b.base.toNat + b.len.toNat) : c.mem.get a = b.mem.get a := by
  have hoff : a - b.base.toNat < b.len.toNat := by omega
  have hbyte : (window c)[a - b.base.toNat]? = (window b)[a - b.base.toNat]? := by rw [hw]
  rw [window_getElem?, window_getElem?, hbase, hlen, if_pos hoff, if_pos hoff, Option.some.injEq,
    Nat.add_sub_cancel' hlo] at hbyte
  exact hbyte

/-- A second transform under the same initial key brings every byte of the memory back, and ends with the same key and shift
(41_crypt.md R117). -/
theorem crypted_again {d : Block} (h₁ : Crypted b c) (h₂ : Crypted { c with key := b.key } d) :
    (∀ a, d.mem.get a = b.mem.get a) ∧ d.key = c.key ∧ d.shift = c.shift := by
  have hw₁ : window { c with key := b.key } = (crypt (window b) b.key).1 := h₁.window
  have hw : window d = window b := by rw [h₂.window, hw₁, crypt_crypt_bytes]
  have hbase : d.base = b.base := h₂.base.trans h₁.base
  have hlen : d.len = b.len := h₂.len.trans h₁.len
  refine ⟨fun a => ?_, ?_, ?_⟩
  · by_cases ha : b.base.toNat ≤ a ∧ a < b.base.toNat + b.len.toNat
    · exact get_eq_of_window_eq hbase hlen hw ha.1 ha.2
    · have hout : a < b.base.toNat ∨ b.base.toNat + b.len.toNat ≤ a := by omega
      have hout' : a < c.base.toNat ∨ c.base.toNat + c.len.toNat ≤ a := by rwa [h₁.base, h₁.len]
      exact (h₂.outside a hout').trans (h₁.outside a hout)
  · rw [crypted_key_eq h₂, crypted_key_eq h₁, h₁.len]
  · rw [crypted_shift_eq h₂, crypted_shift_eq h₁, h₁.len]

/-- The window fits for `CRYPT` again: it moves neither `BASE` nor `LEN`. -/
theorem crypted_fits (h : Crypted b c) (hfits : b.base.toNat + b.len.toNat ≤ Config.bufBytes) :
    c.base.toNat + c.len.toNat ≤ Config.bufBytes := by
  rwa [h.base, h.len]

/-- The state after `WR KEY` (42_host_access.md R131). -/
def State.rekeyed (s : State) (k : Word) : State :=
  { s with block := { s.block with key := k }, responses := s.responses ++ [⟨.ok, 0⟩] }

theorem rekeyed_block (s : State) (k : Word) : (s.rekeyed k).block = { s.block with key := k } := rfl

theorem exec_wr_key (s : State) (k : Word) : exec (.wr 2 k) s = .next (s.rekeyed k) := exec_wr_of_some rfl

/-- Settles O45: the second run starts under the final key of the first; with `KEY` written again the two are one transform
done twice. -/
theorem secondCryptRestoresWithTheKeyReloaded : Obligations.SecondCryptRestoresWithTheKeyReloaded := by
  intro s t hfits h
  have hc := crypted_of_exec hfits h
  have hfits' := crypted_fits hc hfits
  constructor
  · obtain ⟨d, hd, hexec⟩ := exec_crypt_of_fits hfits'
    exact ⟨_, hexec, by rw [← crypted_key_eq hc]; exact hd.window⟩
  · obtain ⟨d, hd, hexec⟩ := exec_crypt_of_fits (s := t.rekeyed s.block.key) hfits'
    exact ⟨_, _, exec_wr_key t s.block.key, hexec, crypted_again hc hd⟩

/-! ## The pipeline (42_host_access.md section 3) -/

/-- Settles O46: `HASH` puts the seed into `ACC`, `RD` and `WR` carry it into `KEY`, and none of them touches the window. -/
theorem pipelineTransformsUnderItsOwnSeed : Obligations.PipelineTransformsUnderItsOwnSeed := by
  intro s hfits
  obtain ⟨s₁, hhash, hs₁⟩ : ∃ s₁, exec .hash s = .next s₁ ∧ s₁.block = hashed s.block :=
    ⟨_, exec_hash_of_fits hfits, rfl⟩
  have hacc : readOperand s₁.block 3 = some (seedHash (window s.block)) := by rw [hs₁]; rfl
  obtain ⟨s₂, hrd, hresp, hs₂⟩ : ∃ s₂, exec (.rd 3) s₁ = .next s₂ ∧
      s₂.responses = s₁.responses ++ [⟨.ok, seedHash (window s.block)⟩] ∧ s₂.block = hashed s.block :=
    ⟨_, exec_rd_of_some hacc, rfl, hs₁⟩
  have hs₃ : (s₂.rekeyed (seedHash (window s.block))).block =
      { hashed s.block with key := seedHash (window s.block) } := by rw [rekeyed_block, hs₂]
  obtain ⟨c, hc, hcrypt⟩ :=
    exec_crypt_of_fits (s := s₂.rekeyed (seedHash (window s.block))) (by rw [hs₃]; exact hfits)
  rw [hs₃] at hc
  have hlen : (pipeline (window s.block)).length = s.block.len.toNat := by
    rw [pipeline, crypt_length, window_length]
  have hshift : c.shift.toNat = 5 * chunkCount s.block.len.toNat % 32 := by
    rw [crypted_shift_eq hc, scheduleShift_toNat]
    rfl
  exact ⟨s₁, s₂, _, _, hhash, hrd, hresp, exec_wr_key s₂ _, hcrypt, hc.window, hlen, hc.acc, crypted_key_eq hc,
    hshift⟩

end Sys2Proof.Machine
end

section
/-! PROOFS. What every transaction writes and what it leaves (10_state.md sections 1 to 4), and the invariant of the block
between transactions, which every step keeps (10_state.md R10, R21, R22). -/

namespace Sys2Proof.Machine

open Sys2Proof.Safety

variable {i : Instr} {s t : State} {b c : Block}

/-! ## What a transaction can write -/

/-- Everything a transaction can make of the block `b` (42_host_access.md sections 1 and 2, 40_hash.md R85, 41_crypt.md
R111). -/
inductive Wrote (b : Block) : Instr → Block → Prop where
  /-- A transaction that reads, or one that is refused. -/
  | nothing (i : Instr) : Wrote b i b
  | base (v : Word) : Wrote b (.wr 0 v) { b with base := v }
  | len (v : Word) : Wrote b (.wr 1 v) { b with len := v }
  | key (v : Word) : Wrote b (.wr 2 v) { b with key := v }
  | byte (a : Nat) (v : Byte) (ha : a < Config.bufBytes) : Wrote b (.mwr a v) { b with mem := b.mem.set a v }
  | hash (hfits : b.base.toNat + b.len.toNat ≤ Config.bufBytes) : Wrote b .hash (hashed b)
  | crypt (c : Block) (hfits : b.base.toNat + b.len.toNat ≤ Config.bufBytes)
      (hrun : runSeq (cryptSteps b.len.toNat) (cryptStart b) = .ok c) : Wrote b .crypt c

theorem wrote_of_exec_wr {reg : Nat} {v : Word} (h : exec (.wr reg v) s = .next t) :
    Wrote s.block (.wr reg v) t.block := by
  rcases execWr_next h with ⟨b, hb, rfl⟩ | ⟨-, rfl⟩
  · rcases writeOperand_cases hb with ⟨rfl, rfl⟩ | ⟨rfl, rfl⟩ | ⟨rfl, rfl⟩
    · exact .base v
    · exact .len v
    · exact .key v
  · exact .nothing _

theorem wrote_of_exec_mwr {a : Nat} {v : Byte} (h : exec (.mwr a v) s = .next t) :
    Wrote s.block (.mwr a v) t.block := by
  rw [exec, execMwr_eq] at h
  split at h
  · next ha => cases h; exact .byte a v ha
  · cases h; exact .nothing _

theorem wrote_of_exec_hash (h : exec .hash s = .next t) : Wrote s.block .hash t.block := by
  rcases exec_hash_next h with ⟨-, ht⟩ | ⟨hfits, ht⟩
  · exact ht ▸ .nothing _
  · exact ht ▸ .hash hfits

theorem wrote_of_exec_crypt (h : exec .crypt s = .next t) : Wrote s.block .crypt t.block := by
  rw [exec_crypt] at h
  rcases runCommand_next h with ⟨-, rfl⟩ | ⟨hfits, c, hrun, rfl⟩
  · exact .nothing _
  · exact .crypt c hfits hrun

theorem wrote_of_exec (h : exec i s = .next t) : Wrote s.block i t.block := by
  cases i with
  | rd reg => exact exec_rd_keeps_block h ▸ .nothing _
  | wr reg v => exact wrote_of_exec_wr h
  | mrd a => exact exec_mrd_keeps_block h ▸ .nothing _
  | mwr a v => exact wrote_of_exec_mwr h
  | hash => exact wrote_of_exec_hash h
  | crypt => exact wrote_of_exec_crypt h

/-! ## Each element by its writers -/

/-- The end of a run of `CRYPT`, as the host sees it. -/
theorem crypted_of_runSeq (hfits : b.base.toNat + b.len.toNat ≤ Config.bufBytes)
    (hrun : runSeq (cryptSteps b.len.toNat) (cryptStart b) = .ok c) : Crypted b c := by
  obtain ⟨d, hd, -, hend⟩ := runSeq_cryptStart hfits
  rw [hend, Except.ok.injEq] at hrun
  exact hrun ▸ crypted_of_atChunk hd

theorem wrote_acc (h : Wrote b i c) (hi : i ≠ .hash) : c.acc = b.acc := by
  cases h with
  | hash => exact absurd rfl hi
  | crypt c hfits hrun => exact (crypted_of_runSeq hfits hrun).acc
  | _ => rfl

theorem wrote_key (h : Wrote b i c) (hi : i ≠ .crypt) (hwr : ∀ v, i ≠ .wr 2 v) : c.key = b.key := by
  cases h with
  | key v => exact absurd rfl (hwr v)
  | crypt => exact absurd rfl hi
  | _ => rfl

theorem wrote_cipher (h : Wrote b i c) (hi : i ≠ .crypt) :
    c.shift = b.shift ∧ c.ckey = b.ckey ∧ c.clen = b.clen ∧ c.idx = b.idx := by
  cases h with
  | crypt => exact absurd rfl hi
  | _ => exact ⟨rfl, rfl, rfl, rfl⟩

theorem wrote_base (h : Wrote b i c) (hwr : ∀ v, i ≠ .wr 0 v) : c.base = b.base := by
  cases h with
  | base v => exact absurd rfl (hwr v)
  | crypt c hfits hrun => exact (crypted_of_runSeq hfits hrun).base
  | _ => rfl

theorem wrote_len (h : Wrote b i c) (hwr : ∀ v, i ≠ .wr 1 v) : c.len = b.len := by
  cases h with
  | len v => exact absurd rfl (hwr v)
  | crypt c hfits hrun => exact (crypted_of_runSeq hfits hrun).len
  | _ => rfl

theorem wrote_sequencer (h : Wrote b i c) (hhash : i ≠ .hash) (hcrypt : i ≠ .crypt) :
    c.phase = b.phase ∧ c.ptr = b.ptr ∧ c.rem = b.rem := by
  cases h with
  | hash => exact absurd rfl hhash
  | crypt => exact absurd rfl hcrypt
  | _ => exact ⟨rfl, rfl, rfl⟩

theorem wrote_mem (h : Wrote b i c) (hi : i ≠ .crypt) (hmwr : ∀ a v, i ≠ .mwr a v) : c.mem = b.mem := by
  cases h with
  | byte a v => exact absurd rfl (hmwr a v)
  | crypt => exact absurd rfl hi
  | _ => rfl

/-- A transaction takes no further request (70_reset_and_hazards.md R198). -/
theorem exec_keeps_requests (h : exec i s = .next t) : t.requests = s.requests := by
  obtain ⟨b', r, hans⟩ := exec_answersFrom s.block i
  have ht := hans s rfl
  rw [h, Host.Outcome.next.injEq] at ht
  rw [ht]

/-- Settles O40: each element by the cases of what a transaction can write. -/
theorem eachElementIsWrittenOnlyByItsWriters : Obligations.EachElementIsWrittenOnlyByItsWriters := by
  intro i s t h
  have hw := wrote_of_exec h
  exact ⟨wrote_acc hw, wrote_key hw, wrote_cipher hw, wrote_base hw, wrote_len hw, wrote_sequencer hw, wrote_mem hw,
    exec_keeps_requests h⟩

/-! ## The invariant inside a command (10_state.md R21) -/

/-- What holds of the block at every sequencer step of `CRYPT`: the bytes still to come lie in the memory, the counters are
within their bounds, and an open chunk is no longer than what is still to come. -/
structure SeqInv (b : Block) : Prop where
  range : b.ptr + b.rem ≤ Config.bufBytes
  clen_le : b.clen ≤ Config.chunkBytes
  idx_le : b.idx ≤ Config.chunkBytes
  chunk : b.phase = .cByte ∨ b.phase = .cUpd → b.clen ≤ b.rem
  mem_wf : b.mem.wf

theorem seqInv_cryptStart (h : Inv b) (hfits : b.base.toNat + b.len.toNat ≤ Config.bufBytes) :
    SeqInv (cryptStart b) where
  range := hfits
  clen_le := h.clen_le
  idx_le := h.idx_le
  chunk hphase := by simp at hphase
  mem_wf := h.mem_wf

/-- Every sequencer step keeps the invariant, by `PHASE`. -/
theorem seqStep_keeps_seqInv (b b' : Block) (h : SeqInv b) (hstep : seqStep b = .ok b') : SeqInv b' := by
  obtain ⟨hrange, hclen, hidx, hchunk, hwf⟩ := h
  rcases seqStep_cases hstep with ⟨-, rfl⟩ | ⟨-, -, rfl⟩ | ⟨hp, hr, -, rfl⟩ | ⟨-, -, rfl⟩ | ⟨-, -, rfl⟩ |
    ⟨hp, hi, ha, rfl⟩ | ⟨hp, -, rfl⟩ | ⟨hp, rfl⟩
  · exact ⟨hrange, hclen, hidx, hchunk, hwf⟩
  · exact ⟨hrange, hclen, hidx, by simp, hwf⟩
  · exact ⟨by dsimp only; omega, hclen, hidx, by simp [hp], hwf⟩
  · exact ⟨hrange, hclen, hidx, by simp, hwf⟩
  · exact ⟨hrange, Nat.min_le_right _ _, Nat.zero_le _, fun _ => Nat.min_le_left _ _, hwf⟩
  · exact ⟨hrange, hclen, hi.trans_le hclen, fun _ => hchunk (.inl hp), wf_set _ hwf ha⟩
  · exact ⟨hrange, hclen, hidx, fun _ => hchunk (.inl hp), hwf⟩
  · have hle := hchunk (.inr hp)
    exact ⟨by simp only [cUpdStep_ptr, cUpdStep_rem]; omega, hclen, hidx, by simp, hwf⟩

/-! ## The invariant between transactions -/

theorem inv_hashed (h : Inv b) (hfits : b.base.toNat + b.len.toNat ≤ Config.bufBytes) : Inv (hashed b) where
  idle := rfl
  ptr_le := hfits
  rem_le := Nat.zero_le _
  clen_le := h.clen_le
  idx_le := h.idx_le
  mem_wf := h.mem_wf

/-- `CRYPT` keeps the invariant: it ends in `IDLE`, and the rest holds at each of its sequencer steps. -/
theorem inv_crypt (h : Inv b) (hfits : b.base.toNat + b.len.toNat ≤ Config.bufBytes)
    (hrun : runSeq (cryptSteps b.len.toNat) (cryptStart b) = .ok c) : Inv c := by
  have hseq : SeqInv c := runSeq_keeps seqStep_keeps_seqInv (seqInv_cryptStart h hfits) hrun
  have hrange := hseq.range
  exact ⟨(crypted_of_runSeq hfits hrun).phase, by omega, by omega, hseq.clen_le, hseq.idx_le, hseq.mem_wf⟩

theorem wrote_keeps_inv (h : Inv b) (hw : Wrote b i c) : Inv c := by
  cases hw with
  | nothing => exact h
  | base v => exact { h with }
  | len v => exact { h with }
  | key v => exact { h with }
  | byte a v ha => exact { h with mem_wf := wf_set v h.mem_wf ha }
  | hash hfits => exact inv_hashed h hfits
  | crypt c hfits hrun => exact inv_crypt h hfits hrun

/-- Settles O47: a step writes the block by one transaction, or not at all. -/
theorem everyStepKeepsTheBlockInvariant : Obligations.EveryStepKeepsTheBlockInvariant := by
  intro s t h hstep
  rcases step_cases s with ⟨-, hs⟩ | ⟨q, qs, i, -, -, hs⟩ | ⟨q, qs, c, -, -, hs⟩
  · rw [hs, Host.Outcome.next.injEq] at hstep
    exact hstep ▸ h
  · rw [hs] at hstep
    exact wrote_keeps_inv h (wrote_of_exec (s := { s with requests := qs }) hstep)
  · rw [hs, Host.Outcome.next.injEq] at hstep
    exact hstep ▸ h

end Sys2Proof.Machine
end

section
/-! PROOFS. The hidden leftovers are never observed (10_state.md R22): from two blocks the host cannot tell apart, every
transaction gives the same response and two blocks it cannot tell apart. -/

namespace Sys2Proof.Machine

open Sys2Proof.Safety

variable {a b : Block}

theorem sameToHost_refl (b : Block) : SameToHost b b := ⟨rfl, rfl, rfl, rfl, rfl, rfl, rfl⟩

theorem sameToHost_leftovers (b : Block) (ckey : Word) (ptr rem clen idx : Nat) :
    SameToHost b { b with ckey := ckey, ptr := ptr, rem := rem, clen := clen, idx := idx } :=
  ⟨rfl, rfl, rfl, rfl, rfl, rfl, rfl⟩

/-- The host cannot tell a block from one with other leftovers, and from no other block. -/
theorem sameToHost_iff :
    SameToHost a b ↔
      ∃ ckey ptr rem clen idx, b = { a with ckey := ckey, ptr := ptr, rem := rem, clen := clen, idx := idx } := by
  constructor
  · rintro ⟨hacc, hkey, hshift, hbase, hlen, hphase, hmem⟩
    refine ⟨b.ckey, b.ptr, b.rem, b.clen, b.idx, ?_⟩
    rw [hacc, hkey, hshift, hbase, hlen, hphase, hmem]
  · rintro ⟨_, _, _, _, _, rfl⟩
    exact sameToHost_leftovers a _ _ _ _ _

/-! ## What the transactions read of the block -/

theorem readOperand_congr (h : SameToHost a b) (reg : Nat) : readOperand b reg = readOperand a reg := by
  obtain ⟨_, _, _, _, _, rfl⟩ := sameToHost_iff.mp h
  exact congrArg (Option.map · (regOfIndex reg)) (funext fun r => by cases r <;> rfl)

theorem accepts_congr (h : SameToHost a b) (i : Instr) : Accepts b i ↔ Accepts a i := by
  obtain ⟨_, _, _, _, _, rfl⟩ := sameToHost_iff.mp h
  cases i <;> rfl

/-- `WR` writes the same register of both. -/
theorem writeOperand_sameToHost (h : SameToHost a b) {reg : Nat} {v : Word} {a' : Block}
    (ha : writeOperand a reg v = some a') : ∃ b', writeOperand b reg v = some b' ∧ SameToHost a' b' := by
  obtain ⟨_, _, _, _, _, rfl⟩ := sameToHost_iff.mp h
  rcases writeOperand_cases ha with ⟨rfl, rfl⟩ | ⟨rfl, rfl⟩ | ⟨rfl, rfl⟩
  · exact ⟨_, rfl, sameToHost_leftovers _ _ _ _ _ _⟩
  · exact ⟨_, rfl, sameToHost_leftovers _ _ _ _ _ _⟩
  · exact ⟨_, rfl, sameToHost_leftovers _ _ _ _ _ _⟩

theorem hashed_sameToHost (h : SameToHost a b) : SameToHost (hashed a) (hashed b) := by
  obtain ⟨_, _, _, _, _, rfl⟩ := sameToHost_iff.mp h
  exact sameToHost_iff.mpr ⟨_, _, _, _, _, rfl⟩

/-- A `CRYPT` over an empty window is its closing step (41_crypt.md R109). -/
theorem runSeq_cryptStart_empty (h : b.len.toNat = 0) :
    runSeq (cryptSteps b.len.toNat) (cryptStart b) = .ok { cryptStart b with phase := .idle } := by
  rw [h]
  exact runSeq_succ_of_ok 0 (seqStep_cChunk_end rfl h)

/-- A `CRYPT` over a window that is not empty first opens a chunk (41_crypt.md R113). -/
theorem runSeq_cryptStart_nonempty (h : b.len.toNat ≠ 0) :
    runSeq (cryptSteps b.len.toNat) (cryptStart b) =
      runSeq (b.len.toNat + 3 * chunkCount b.len.toNat) (openedChunk (cryptStart b)) :=
  runSeq_succ_of_ok _ (seqStep_openedChunk rfl h)

/-- Opening the first chunk writes every leftover, whatever it held. -/
theorem openedChunk_cryptStart_congr (h : SameToHost a b) : openedChunk (cryptStart a) = openedChunk (cryptStart b) := by
  obtain ⟨_, _, _, _, _, rfl⟩ := sameToHost_iff.mp h
  rfl

theorem cryptStart_idle_sameToHost (h : SameToHost a b) :
    SameToHost { cryptStart a with phase := .idle } { cryptStart b with phase := .idle } :=
  ⟨h.acc_eq, h.key_eq, rfl, h.base_eq, h.len_eq, rfl, h.mem_eq⟩

/-- `CRYPT` writes every leftover before it reads it: over a window that is not empty, opening the first chunk makes the two
blocks equal, and over an empty one there is nothing to read (10_state.md R22). -/
theorem runSeq_cryptStart_sameToHost (h : SameToHost a b) {a' : Block}
    (ha : runSeq (cryptSteps a.len.toNat) (cryptStart a) = .ok a') :
    ∃ b', runSeq (cryptSteps b.len.toNat) (cryptStart b) = .ok b' ∧ SameToHost a' b' := by
  by_cases hlen : a.len.toNat = 0
  · rw [runSeq_cryptStart_empty hlen, Except.ok.injEq] at ha
    subst ha
    exact ⟨_, runSeq_cryptStart_empty (h.len_eq ▸ hlen), cryptStart_idle_sameToHost h⟩
  · rw [runSeq_cryptStart_nonempty hlen, openedChunk_cryptStart_congr h, h.len_eq] at ha
    rw [h.len_eq] at hlen
    exact ⟨a', (runSeq_cryptStart_nonempty hlen).trans ha, sameToHost_refl a'⟩

/-! ## One transaction, and one step -/

theorem answersFrom_rd {reg : Nat} {v : Word} (h : readOperand b reg = some v) :
    AnswersFrom b (exec (.rd reg)) b ⟨.ok, v⟩ := by
  rintro s rfl
  exact exec_rd_of_some h

theorem answersFrom_wr {reg : Nat} {v : Word} {b' : Block} (h : writeOperand b reg v = some b') :
    AnswersFrom b (exec (.wr reg v)) b' ⟨.ok, 0⟩ := by
  rintro s rfl
  exact exec_wr_of_some h

theorem answersFrom_mrd {x : Nat} (h : x < Config.bufBytes) :
    AnswersFrom b (exec (.mrd x)) b ⟨.ok, zextByte (b.mem.get x)⟩ := by
  rintro s rfl
  exact exec_mrd_of_lt h

theorem answersFrom_mwr {x : Nat} (v : Byte) (h : x < Config.bufBytes) :
    AnswersFrom b (exec (.mwr x v)) { b with mem := b.mem.set x v } ⟨.ok, 0⟩ := by
  rintro s rfl
  exact exec_mwr_of_lt v h

theorem answersFrom_hash (h : b.base.toNat + b.len.toNat ≤ Config.bufBytes) :
    AnswersFrom b (exec .hash) (hashed b) ⟨.ok, 0⟩ := by
  rintro s rfl
  exact exec_hash_of_fits h

theorem answersFrom_crypt {b' : Block} (h : b.base.toNat + b.len.toNat ≤ Config.bufBytes)
    (hrun : runSeq (cryptSteps b.len.toNat) (cryptStart b) = .ok b') : AnswersFrom b (exec .crypt) b' ⟨.ok, 0⟩ := by
  rintro s rfl
  exact runCommand_of_fits _ _ _ h hrun

theorem answersFrom_refused {i : Instr} (h : ¬ Accepts b i) : AnswersFrom b (exec i) b ⟨refusalCode i, 0⟩ := by
  rintro s rfl
  exact exec_refused s i h

/-- From two blocks the host cannot tell apart, a transaction gives the same response and two such blocks. -/
theorem exec_sameToHost (h : SameToHost a b) (i : Instr) :
    ∃ a' b' r, AnswersFrom a (exec i) a' r ∧ AnswersFrom b (exec i) b' r ∧ SameToHost a' b' := by
  have hiff := accepts_congr h i
  by_cases hacc : Accepts a i
  · have haccb := hiff.mpr hacc
    cases i with
    | rd reg =>
      obtain ⟨v, hv⟩ := readOperand_eq_some a hacc
      exact ⟨a, b, _, answersFrom_rd hv, answersFrom_rd ((readOperand_congr h reg).trans hv), h⟩
    | wr reg v =>
      obtain ⟨a', ha'⟩ := writeOperand_eq_some a v hacc
      obtain ⟨b', hb', h'⟩ := writeOperand_sameToHost h ha'
      exact ⟨a', b', _, answersFrom_wr ha', answersFrom_wr hb', h'⟩
    | mrd x => exact ⟨a, b, _, answersFrom_mrd hacc, h.mem_eq ▸ answersFrom_mrd haccb, h⟩
    | mwr x v =>
      exact ⟨_, _, _, answersFrom_mwr v hacc, answersFrom_mwr v haccb, { h with mem_eq := by rw [h.mem_eq] }⟩
    | hash => exact ⟨_, _, _, answersFrom_hash hacc, answersFrom_hash haccb, hashed_sameToHost h⟩
    | crypt =>
      obtain ⟨a', ha'⟩ := runSeq_cryptStart_ok hacc
      obtain ⟨b', hb', h'⟩ := runSeq_cryptStart_sameToHost h ha'
      exact ⟨a', b', _, answersFrom_crypt hacc ha', answersFrom_crypt haccb hb', h'⟩
  · exact ⟨a, b, _, answersFrom_refused hacc, answersFrom_refused (mt hiff.mp hacc), h⟩

/-- Settles O43: the request waiting is the same for both, so is what the decoder answers. -/
theorem hiddenLeftoversAreNeverObserved : Obligations.HiddenLeftoversAreNeverObserved := by
  intro s₁ s₂ t₁ h hreq hresp hstep
  cases hq : s₁.requests with
  | nil =>
    rw [step_of_no_request hq, Host.Outcome.next.injEq] at hstep
    subst hstep
    exact ⟨s₂, step_of_no_request (hreq ▸ hq), h, hreq, hresp⟩
  | cons q qs =>
    have hq₂ : s₂.requests = q :: qs := hreq ▸ hq
    cases hd : decode q with
    | refused c =>
      rw [step_of_refused hq hd, Host.Outcome.next.injEq] at hstep
      subst hstep
      exact ⟨_, step_of_refused hq₂ hd, h, rfl, by rw [hresp]⟩
    | instr i =>
      obtain ⟨a', b', r, hans₁, hans₂, h'⟩ := exec_sameToHost h i
      rw [step_of_instr hq hd, hans₁ { s₁ with requests := qs } rfl, Host.Outcome.next.injEq] at hstep
      subst hstep
      refine ⟨_, (step_of_instr hq₂ hd).trans (hans₂ { s₂ with requests := qs } rfl), h', rfl, ?_⟩
      simp only [hresp]

end Sys2Proof.Machine
end
